-- ==== Sys2Proof/Word.lean ====
section
/-! DEFINITION. The words of BMS-CORE and the small operand types its operations carry: samples, floats as bit patterns,
converter answers, frames, fault kinds and configuration writes. -/

namespace Sys2Proof

/-- One payload byte of a bus frame (30_encoding.md R93). -/
abbrev Byte := BitVec 8

/-- A raw sample: two's complement, `W_SAMPLE = 16` bits (00_scope.md R9, 20_memory.md R60). Log 13. -/
abbrev Sample := BitVec 16

/-- The mean numerator `mean_q5`: `W_SAMPLE + 5 = 21` bits signed (10_state.md R21). Log 13. -/
abbrev MeanQ5 := BitVec 21

/-- A 32-bit word: a float's bit pattern, a signed integer, or the millisecond clock. Log 13. -/
abbrev Word32 := BitVec 32

/-- The bit pattern of an IEEE 754 binary32 number (10_state.md R42, PRESUMED there: "from general knowledge"). Log 10. -/
abbrev F32 := BitVec 32

/-- A logical channel: 0..3 voltage banks, 4..7 thermistor banks (20_memory.md R71). -/
abbrev Channel := BitVec 3

/-- A switch line, 0..15 (20_memory.md R66). -/
abbrev Line := BitVec 4

/-- The answer of a converter to ADC_FETCH (30_encoding.md R102). -/
inductive Rsp where
  | notReady
  | ready (code : Sample)
  deriving DecidableEq, Repr, Inhabited

/-- A frame as the bus carries it: 11-bit identifier, 0 to 8 payload bytes in bus order, and the clock value at its
arrival (30_encoding.md R93). Bytes at index `dlc` and above do not exist (R94), so `dlc` is the list's length. Log 14. -/
structure Frame where
  id    : BitVec 11
  data  : List Byte
  nowMs : Word32
  deriving DecidableEq, Repr

/-- `dlc`: the number of payload bytes the frame carries (30_encoding.md R93). -/
def Frame.dlc (f : Frame) : Nat := f.data.length

/-- The four classes a FRAME resolves to (00_scope.md R6, 30_encoding.md R100). -/
inductive FrameClass where
  | ignore
  | short
  | fault
  | data
  deriving DecidableEq, Repr

/-- The seven conditions a fault code maps to, in the source's order (30_encoding.md R98). -/
inductive FaultKind where
  | flashCrc
  | fluxgateOverfreq
  | fluxgateNoOsc
  | failsafe
  | signalUnavailable
  | bridgeVoltageProt
  | unrecognized
  deriving DecidableEq, Repr, Inhabited

/-- A member of a thermistor coefficient set (10_state.md R33). -/
inductive CoefMember where
  | a
  | b
  | c
  | k
  deriving DecidableEq, Repr, Inhabited

/-- The field and the value of one CFG.WRITE (10_state.md R40; the fields are those of the opcode table's row and of
30_encoding.md R111, so a thermistor coefficient is written by its member). Log 15. -/
inductive CfgWrite where
  | vscale (bank : BitVec 2) (v : F32)
  | tcoef (bank : BitVec 2) (m : CoefMember) (v : F32)
  | imbThresh (v : Word32)
  | sensorAddr (v : BitVec 11)
  | maxCharge (v : Word32)
  | chargeInit (v : Word32)
  | rxEnable (v : Bool)
  deriving DecidableEq, Repr

/-- Two forms of frame that are not presented to the block at all (30_encoding.md R93, R109 (7); D19). -/
inductive ForeignFrame where
  | extendedId
  | remote
  deriving DecidableEq, Repr

end Sys2Proof
end

