-- ==== Sys2Proof/Config.lean ====
section
/-! DEFINITION. What is fixed for one machine: the parameters the spec gives a default (00_scope.md R8, R9) as named
constants, and the parameters it leaves OPEN (R10) as constants without a body. -/

namespace Sys2Proof.Config

/-- `T_OFFSET`: the offset of the thermistor channels (00_scope.md R9, D7). Log 12. -/
def tOffset : Channel := 4#3

/-- `BIAS = 0x80000000`, the zero point of the current field (00_scope.md R9, 30_encoding.md R95). Log 12. -/
def bias : Nat := 0x80000000

/-- `STATUS_BYTE`: which payload byte holds the status bit (00_scope.md R9, 30_encoding.md R96). Log 12. -/
def statusByte : Nat := 4

/-- `STATUS_BIT`: which bit of that byte is the status bit (00_scope.md R9, 30_encoding.md R96). Log 12. -/
def statusBit : Nat := 0

/-- `MIN_DLC = STATUS_BYTE + 1` (00_scope.md R9, 42_decoder.md R195). Log 12. -/
def minDlc : Nat := statusByte + 1

/-- `FIRST_ELAPSED_MS`: the nominal first interval (00_scope.md R9, 42_decoder.md R199). Log 12. -/
def firstElapsedMs : Nat := 1

/-- `DIV = 360`, the charge divisor (00_scope.md R8, 42_decoder.md R200, R202). -/
def chargeDiv : Int := 360

/-- `WIN = 32`, the slots of one window (00_scope.md R8). -/
def win : Nat := 32

/-- `TEMP_COEF_SEL = K`: the member RD.TEMP applies (00_scope.md R9, 41_accessor.md R174). Log 12. -/
def tempCoefSel : CoefMember := .k

/-- `FAULT_MAP`: OPEN, a total function of the 7-bit fault code (30_encoding.md R99). No body: every statement holds for
every map. Log 9. -/
opaque faultMap : BitVec 7 → FaultKind

/-- `ACC_MUL`: OPEN, a total function of the exact mean and the float coefficient (41_accessor.md R172). No body: every
statement holds for every choice. Log 10. -/
opaque accMul : Rat → F32 → F32

/-- The sign, and the fraction below its top bit, of a NaN that the default product of 41_accessor.md R172 yields: a free
value, the spec gives no NaN pattern. Log 10. -/
opaque nanBits : Rat → F32 → Bool × BitVec 22

/-- `SW_PIN_MAP`: OPEN, per switch line its physical pin and whether "asserted" is the high level (20_memory.md R66). Log 11. -/
opaque swPinMap : Line → Nat × Bool

/-- `ADC_ADDR_V`: OPEN, the bus address of converter 0 (20_memory.md R68); no rule reads it. Log 11. -/
opaque adcAddrV : Nat

/-- `ADC_ADDR_T`: OPEN, the bus address of converter 1 (20_memory.md R68); no rule reads it. Log 11. -/
opaque adcAddrT : Nat

/-- `TICK_MS`: OPEN, timing only (70_reset_and_hazards.md R293); no rule reads it. Log 11. -/
opaque tickMs : Nat

end Sys2Proof.Config
end

