-- ==== Sys2Proof/Machine/Operands.lean ====
section
/-! DEFINITION. Operand forms: the fields of a frame and its class, the accessor's index and exact mean, and the integer
formulas an operation applies to its operands. -/

namespace Sys2Proof

/-- `data[n]` (30_encoding.md R93). Read only where `n < dlc` (R94); an absent byte reads as 0, which is what the class
key of R100 takes for the status bit of a frame without `data[4]`. -/
def Frame.byte (f : Frame) (n : Nat) : Byte := f.data.getD n 0#8

/-- The current field `{data[0], data[1], data[2], data[3]}`, big-endian (30_encoding.md R95). -/
def Frame.raw (f : Frame) : Word32 := f.byte 0 ++ f.byte 1 ++ f.byte 2 ++ f.byte 3

/-- The current in milliamps, `raw - BIAS`, a mathematical integer (30_encoding.md R95, 42_decoder.md R198). -/
def Frame.current (f : Frame) : Int := (f.raw.toNat : Int) - Config.bias

/-- The status byte `st` (30_encoding.md R96). -/
def Frame.status (f : Frame) : Byte := f.byte Config.statusByte

/-- The status bit `st[STATUS_BIT]` (30_encoding.md R96). -/
def Frame.statusBit (f : Frame) : Bool := f.status.getLsbD Config.statusBit

/-- The seven bits of `st` other than bit `b`, the bits above it moved down by one (30_encoding.md R97). -/
def closeUpBit (b : Nat) (st : Byte) : BitVec 7 :=
  BitVec.ofNat 7 ((st.toNat >>> (b + 1)) <<< b + st.toNat % 2 ^ b)

/-- The fault code (30_encoding.md R97). -/
def Frame.faultCode (f : Frame) : BitVec 7 := closeUpBit Config.statusBit f.status

/-- The frame carries at most 8 payload bytes (30_encoding.md R93). -/
def Frame.fits (f : Frame) : Bool := f.dlc ≤ 8

/-- The class of a frame, by the ordered tests of 30_encoding.md R100: identifier, length, status bit. -/
def Frame.classOf (addr : BitVec 11) (f : Frame) : FrameClass :=
  if f.id ≠ addr then .ignore
  else if f.dlc < Config.minDlc then .short
  else if f.statusBit then .fault
  else .data

/-- The class key `{id = cfg.sensor_addr, dlc ≥ 5, P[24]}` of 30_encoding.md R100 and of opcode_table.json. -/
def Frame.classKey (addr : BitVec 11) (f : Frame) : BitVec 3 :=
  BitVec.ofBool (f.id == addr) ++ BitVec.ofBool (Config.minDlc ≤ f.dlc) ++ BitVec.ofBool f.statusBit

namespace Machine

/-- Integer division rounding toward zero (00_scope.md R14, R18 (8)). -/
def truncDiv (a b : Int) : Int := a.tdiv b

/-- The charge delta `trunc_div(cur * elapsed, 360)`, the product exact (42_decoder.md R200). -/
def chargeDelta (cur : Int) (elapsed : Nat) : Int := truncDiv (cur * elapsed) Config.chargeDiv

/-- The update and the two clamps of the charge, on mathematical integers (42_decoder.md R203). -/
def updatedCharge (charge maxCharge delta : Int) : Int :=
  let c1 := if delta < 0 ∨ charge ≥ delta then charge - delta else 0
  if c1 > maxCharge then maxCharge else c1

/-- `min(max(cfg.charge_init, 0), cfg.max_charge)`, the reset value of the charge (70_reset_and_hazards.md R273). -/
def resetCharge (chargeInit maxCharge : Int) : Int := min (max chargeInit 0) maxCharge

/-- The bank a read's signed index names: the index in `[0, 3]`, none outside it (41_accessor.md R173 to R175). -/
def bankIndex (i : Word32) : Option (BitVec 2) :=
  if 0 ≤ i.toInt ∧ i.toInt ≤ 3 then some (i.setWidth 2) else none

/-- The logical channel of voltage bank `b` (20_memory.md R71, 41_accessor.md R173). -/
def voltChannel (b : BitVec 2) : Channel := b.setWidth 3

/-- The logical channel of thermistor bank `b`, `T_OFFSET + b` (20_memory.md R71, 10_state.md R25). -/
def thermChannel (b : BitVec 2) : Channel := Config.tOffset + b.setWidth 3

/-- The switch line of side `s` of a channel, `2*ch + s` (20_memory.md R66). -/
def lineOf (ch : Channel) (s : BitVec 1) : Line := ch ++ s

/-- The converter of a channel, `ch[2]` (20_memory.md R71). -/
def converterOf (ch : Channel) : BitVec 1 := ch.extractLsb' 2 1

end Machine

end Sys2Proof
end

