-- ==== Sys2Proof/Syntax.lean ====
section
/-! DEFINITION. The instructions: one constructor per row of spec/opcode_table.json, which is the closed operation set of
00_scope.md R6. -/

namespace Sys2Proof

/-- The operations of the block (00_scope.md R6). A FRAME's class is resolved by the decoder (30_encoding.md R100), so each
class is an instruction that carries the whole frame. -/
inductive Instr where
  /-- RESET (70_reset_and_hazards.md R270). -/
  | reset
  /-- TICK with the answers of converters 0 and 1 (40_sampler.md R143). -/
  | tick (rsp0 rsp1 : Rsp)
  /-- WIN.PUSH, performed inside TICK (40_sampler.md R133). -/
  | winPush (ch : Channel) (code : Sample)
  /-- FRAME.IGNORE: the identifier does not match (42_decoder.md R192). -/
  | frameIgnore (f : Frame)
  /-- FRAME.SHORT: matching, fewer than 5 bytes (42_decoder.md R195). -/
  | frameShort (f : Frame)
  /-- FRAME.FAULT: matching, status bit set (42_decoder.md R196). -/
  | frameFault (f : Frame)
  /-- FRAME.DATA: matching, status bit clear (42_decoder.md R205). -/
  | frameData (f : Frame)
  /-- RD.VOLT with a signed 32-bit index (41_accessor.md R173). -/
  | rdVolt (i : Word32)
  /-- RD.TEMP with a signed 32-bit index (41_accessor.md R174). -/
  | rdTemp (i : Word32)
  /-- RD.CUR (41_accessor.md R176). -/
  | rdCur
  /-- RD.CHG (41_accessor.md R177). -/
  | rdChg
  /-- CFG.WRITE, the console's environment step (10_state.md R40). -/
  | cfgWrite (w : CfgWrite)
  /-- SW_CLR (20_memory.md R67). -/
  | swClr (line : Line)
  /-- SW_SET (20_memory.md R67). -/
  | swSet (line : Line)
  /-- ADC_START (20_memory.md R68). -/
  | adcStart (ch : Channel)
  /-- ADC_FETCH (20_memory.md R68). -/
  | adcFetch (c : BitVec 1)
  /-- EV_FAULT (60_exceptions.md R232). -/
  | evFault (kind : FaultKind) (code : BitVec 7)
  /-- EV_IMBALANCE (60_exceptions.md R234). -/
  | evImbalance
  deriving DecidableEq, Repr

end Sys2Proof
end

