-- ==== Sys2Proof/WellFormed.lean ====
section
/-! DEFINITION. Well-formed instructions: what the types leave open, namely a frame's length and that a frame stands under
the class it resolves to. -/

namespace Sys2Proof

/-- An instruction is well formed, for the sensor address in force, when a frame carries at most 8 bytes (30_encoding.md
R93, R109 (7)) and stands under the constructor of its class (R100). Every other operand has exactly its legal values. -/
def Instr.wf (addr : BitVec 11) : Instr → Bool
  | .reset => true
  | .tick _ _ => true
  | .winPush _ _ => true
  | .frameIgnore f => f.fits && f.classOf addr == .ignore
  | .frameShort f => f.fits && f.classOf addr == .short
  | .frameFault f => f.fits && f.classOf addr == .fault
  | .frameData f => f.fits && f.classOf addr == .data
  | .rdVolt _ => true
  | .rdTemp _ => true
  | .rdCur => true
  | .rdChg => true
  | .cfgWrite _ => true
  | .swClr _ => true
  | .swSet _ => true
  | .adcStart _ => true
  | .adcFetch _ => true
  | .evFault _ _ => true
  | .evImbalance => true

end Sys2Proof
end

