-- ==== Sys2Proof/Decode.lean ====
section
/-! DEFINITION. The decoder, total on every input the ports can carry and refusing by name, and after it the encoder. The
ports and their words are the six formats of 30_encoding.md R90 (REQ, FRM, RSP, CMD, EVT, RDP); CFG.WRITE and WIN.PUSH have
no bit encoding and stand as they are. -/

namespace Sys2Proof

/-- The `FRM` port (30_encoding.md R93): `payload` is the 64-bit view `P = {data[0], ..., data[7]}`. -/
structure FrameWord where
  id      : BitVec 11
  dlc     : BitVec 4
  payload : BitVec 64
  nowMs   : Word32
  deriving DecidableEq, Repr

/-- One thing the environment presents to the block. The last three are the model's own bench inputs (log 6): they perform
one of the operations that no agent of 00_scope.md R7 starts. -/
inductive Input where
  /-- `REQ` with the `RSP` and `FRM` fields presented at the same time (30_encoding.md R91). `frameFirst` is the free order of
  a simultaneous tick and frame (R92): nothing constrains it, and it means nothing otherwise. Log 5. -/
  | req (strobes : BitVec 3) (rsp0 rsp1 : BitVec 17) (frm : FrameWord) (frameFirst : Bool)
  /-- The read port (30_encoding.md R108). -/
  | rdp (sel : BitVec 2) (idx : Word32)
  /-- The console's CFG.WRITE (10_state.md R40). -/
  | cfg (w : CfgWrite)
  /-- A frame the block has no meaning for (30_encoding.md R109 (7)). -/
  | foreign (k : ForeignFrame)
  /-- Bench: one WIN.PUSH (40_sampler.md R133). Log 6. -/
  | benchPush (ch : Channel) (code : Sample)
  /-- Bench: one command word (30_encoding.md R103). Log 6. -/
  | benchCmd (w : BitVec 6)
  /-- Bench: one event word (30_encoding.md R107). Log 6. -/
  | benchEvt (w : BitVec 11)
  deriving DecidableEq, Repr

/-- An agent of 00_scope.md R7 presents this input: it is none of the model's bench inputs. -/
def Input.external : Input → Bool
  | .req _ _ _ _ _ => true
  | .rdp _ _ => true
  | .cfg _ => true
  | .foreign _ => true
  | .benchPush _ _ => false
  | .benchCmd _ => false
  | .benchEvt _ => false

/-- Why an input has no meaning. -/
inductive DecodeError where
  /-- `dlc` in 9..15 (30_encoding.md R109 (7)). -/
  | dlcOver8
  /-- A frame with a 29-bit identifier (30_encoding.md R109 (7)). -/
  | extendedId
  /-- A remote frame (30_encoding.md R109 (7)). -/
  | remoteFrame
  /-- A command word that is never emitted (30_encoding.md R109). -/
  | neverEmittedCmd
  /-- An event word that is never emitted (30_encoding.md R109). -/
  | neverEmittedEvt
  deriving DecidableEq, Repr

/-- What an input starts. -/
inductive Decoded where
  /-- `req = 0b000`: nothing (30_encoding.md R91). -/
  | idle
  /-- One operation. -/
  | one (i : Instr)
  /-- Two operations, the second still presented by `rest` (30_encoding.md R92). -/
  | two (i : Instr) (rest : Input)
  deriving DecidableEq, Repr

/-- `rsp[c] = {ready, code}`, the code ignored when not ready (30_encoding.md R102). -/
def decodeRsp (w : BitVec 17) : Rsp :=
  if w.getLsbD 16 then .ready (w.extractLsb' 0 16) else .notReady

/-- The eight bytes of `P`, `data[n] = P[63 - 8n : 56 - 8n]` (30_encoding.md R93). -/
def payloadBytes (p : BitVec 64) : List Byte :=
  [p.extractLsb' 56 8, p.extractLsb' 48 8, p.extractLsb' 40 8, p.extractLsb' 32 8,
   p.extractLsb' 24 8, p.extractLsb' 16 8, p.extractLsb' 8 8, p.extractLsb' 0 8]

/-- The frame on the `FRM` port, its bytes at `dlc` and above cut off (30_encoding.md R93, R94). -/
def FrameWord.toFrame (w : FrameWord) : Except DecodeError Frame :=
  if w.dlc.toNat ≤ 8 then
    .ok { id := w.id, data := (payloadBytes w.payload).take w.dlc.toNat, nowMs := w.nowMs }
  else .error .dlcOver8

/-- A frame under the constructor of its class (30_encoding.md R100). -/
def classify (addr : BitVec 11) (f : Frame) : Instr :=
  match f.classOf addr with
  | .ignore => .frameIgnore f
  | .short => .frameShort f
  | .fault => .frameFault f
  | .data => .frameData f

/-- The request strobes `{rst, frame_valid, tick}` (30_encoding.md R91, R92): `rst` alone counts when it is set; a tick and
a frame together are two operations in the order `frameFirst` draws, the second left on the same port (log 5). A
tick together with a frame that cannot be presented is refused with it: DESIGN CHOICE, log 19. -/
def decodeReq (addr : BitVec 11) (strobes : BitVec 3) (rsp0 rsp1 : BitVec 17) (frm : FrameWord) (frameFirst : Bool) :
    Except DecodeError Decoded :=
  let rst := strobes.getLsbD 2
  let frameValid := strobes.getLsbD 1
  let tick := strobes.getLsbD 0
  let tickInstr := Instr.tick (decodeRsp rsp0) (decodeRsp rsp1)
  if rst then .ok (.one .reset)
  else if frameValid then
    match frm.toFrame with
    | .error e => .error e
    | .ok f =>
      if tick then
        if frameFirst then .ok (.two (classify addr f) (.req 0b001#3 rsp0 rsp1 frm frameFirst))
        else .ok (.two tickInstr (.req 0b010#3 rsp0 rsp1 frm frameFirst))
      else .ok (.one (classify addr f))
  else if tick then .ok (.one tickInstr)
  else .ok .idle

/-- The read port (30_encoding.md R108); RD.CUR and RD.CHG ignore the index. -/
def decodeRead (sel : BitVec 2) (idx : Word32) : Instr :=
  if sel = 0b00#2 then .rdVolt idx
  else if sel = 0b01#2 then .rdTemp idx
  else if sel = 0b10#2 then .rdCur
  else .rdChg

/-- The command word `{op, arg}` (30_encoding.md R103 to R106); the words never emitted are refused (R109). -/
def decodeCmd (w : BitVec 6) : Option Instr :=
  let op := w.extractLsb' 4 2
  let arg := w.extractLsb' 0 4
  if op = 0b00#2 then some (.swClr arg)
  else if op = 0b01#2 then some (.swSet arg)
  else if op = 0b10#2 then
    if arg.getLsbD 3 then none else some (.adcStart (arg.extractLsb' 0 3))
  else if arg.extractLsb' 1 3 = 0#3 then some (.adcFetch (arg.extractLsb' 0 1))
  else none

/-- The `FaultKind` of its number (30_encoding.md R98); 7 never appears (R107). -/
def faultKindOf (n : BitVec 3) : Option FaultKind :=
  if n = 0#3 then some .flashCrc
  else if n = 1#3 then some .fluxgateOverfreq
  else if n = 2#3 then some .fluxgateNoOsc
  else if n = 3#3 then some .failsafe
  else if n = 4#3 then some .signalUnavailable
  else if n = 5#3 then some .bridgeVoltageProt
  else if n = 6#3 then some .unrecognized
  else none

/-- The event word `{type, kind, code}` (30_encoding.md R107); the words never emitted are refused (R109). -/
def decodeEvt (w : BitVec 11) : Option Instr :=
  if w.getLsbD 10 then
    if w = 0x400#11 then some .evImbalance else none
  else
    match faultKindOf (w.extractLsb' 7 3) with
    | some k => some (.evFault k (w.extractLsb' 0 7))
    | none => none

/-- What an input starts, for the sensor address in force when the operation starts (10_state.md R39). -/
def decodeInput (addr : BitVec 11) : Input → Except DecodeError Decoded
  | .req strobes rsp0 rsp1 frm frameFirst => decodeReq addr strobes rsp0 rsp1 frm frameFirst
  | .rdp sel idx => .ok (.one (decodeRead sel idx))
  | .cfg w => .ok (.one (.cfgWrite w))
  | .foreign .extendedId => .error .extendedId
  | .foreign .remote => .error .remoteFrame
  | .benchPush ch code => .ok (.one (.winPush ch code))
  | .benchCmd w =>
    match decodeCmd w with
    | some i => .ok (.one i)
    | none => .error .neverEmittedCmd
  | .benchEvt w =>
    match decodeEvt w with
    | some i => .ok (.one i)
    | none => .error .neverEmittedEvt

/-! The encoder, from the same formats. -/

/-- `{ready, code}` (30_encoding.md R102); the ignored code of a not-ready answer is written as 0. -/
def encodeRsp : Rsp → BitVec 17
  | .notReady => 0#17
  | .ready code => 1#1 ++ code

/-- `P[63:0] = {data[0], ..., data[7]}` (30_encoding.md R93); the bytes the frame does not carry are written as 0 (log 14). -/
def payloadOf (f : Frame) : BitVec 64 :=
  f.byte 0 ++ f.byte 1 ++ f.byte 2 ++ f.byte 3 ++ f.byte 4 ++ f.byte 5 ++ f.byte 6 ++ f.byte 7

/-- A frame on the `FRM` port (30_encoding.md R93). -/
def frameWordOf (f : Frame) : FrameWord :=
  { id := f.id, dlc := BitVec.ofNat 4 f.dlc, payload := payloadOf f, nowMs := f.nowMs }

/-- The `FRM` port when no frame is presented. -/
def noFrame : FrameWord := { id := 0#11, dlc := 0#4, payload := 0#64, nowMs := 0#32 }

/-- The number of a `FaultKind` (30_encoding.md R98). -/
def FaultKind.number : FaultKind → BitVec 3
  | .flashCrc => 0#3
  | .fluxgateOverfreq => 1#3
  | .fluxgateNoOsc => 2#3
  | .failsafe => 3#3
  | .signalUnavailable => 4#3
  | .bridgeVoltageProt => 5#3
  | .unrecognized => 6#3

/-- A FRAME request: `rst = 0, frame_valid = 1, tick = 0` with the frame (30_encoding.md R91). -/
def encodeFrame (f : Frame) : Input := .req 0b010#3 0#17 0#17 (frameWordOf f) false

/-- The words of an instruction on its port (30_encoding.md R91 to R108). -/
def encode : Instr → Input
  | .reset => .req 0b100#3 0#17 0#17 noFrame false
  | .tick rsp0 rsp1 => .req 0b001#3 (encodeRsp rsp0) (encodeRsp rsp1) noFrame false
  | .winPush ch code => .benchPush ch code
  | .frameIgnore f => encodeFrame f
  | .frameShort f => encodeFrame f
  | .frameFault f => encodeFrame f
  | .frameData f => encodeFrame f
  | .rdVolt i => .rdp 0b00#2 i
  | .rdTemp i => .rdp 0b01#2 i
  | .rdCur => .rdp 0b10#2 0#32
  | .rdChg => .rdp 0b11#2 0#32
  | .cfgWrite w => .cfg w
  | .swClr line => .benchCmd (0b00#2 ++ line)
  | .swSet line => .benchCmd (0b01#2 ++ line)
  | .adcStart ch => .benchCmd (0b10#2 ++ (0#1 ++ ch))
  | .adcFetch c => .benchCmd (0b11#2 ++ (0#3 ++ c))
  | .evFault kind code => .benchEvt (0#1 ++ (kind.number ++ code))
  | .evImbalance => .benchEvt 0x400#11

/-! The table words. -/

/-- A word numbered as spec/opcode_table.json numbers it, on a port whose row it fits. The table's rows are patterns over
five different words, all numbered from bit 0, so a word of at most 8 bits alone does not say its row; the model's choice
(log 7) is: 4 to 7 is a request with `rst`, 1 a request with `tick` alone, 0, 2 and 3 a read select, 8 to 63 a command word.
Up to 16 bits is an event word; above, the payload `P` of a frame of 8 bytes on the configured identifier. -/
def inputOfTableWord (addr : BitVec 11) (nbits w : Nat) : Option Input :=
  if nbits ≤ 8 then
    if 64 ≤ w then none
    else if 8 ≤ w then some (.benchCmd (BitVec.ofNat 6 w))
    else if 4 ≤ w ∨ w = 1 then some (.req (BitVec.ofNat 3 w) 0#17 0#17 noFrame false)
    else some (.rdp (BitVec.ofNat 2 w) 0#32)
  else if nbits ≤ 16 then
    if w < 2048 then some (.benchEvt (BitVec.ofNat 11 w)) else none
  else if w < 2 ^ 64 then
    some (.req 0b010#3 0#17 0#17 { id := addr, dlc := 8#4, payload := BitVec.ofNat 64 w, nowMs := 0#32 } false)
  else none

/-- The instruction the decoder reads from a table word, under the sensor address that stands after reset (log 8). -/
def decodeTableWord (nbits w : Nat) : Option Instr :=
  match inputOfTableWord 0#11 nbits w with
  | none => none
  | some inp =>
    match decodeInput 0#11 inp with
    | .ok (.one i) => some i
    | .ok (.two i _) => some i
    | .ok .idle => none
    | .error _ => none

end Sys2Proof
end

