-- ==== Sys2Proof/Machine/State.lean ====
section
/-! DEFINITION. The state of the machine: everything 10_state.md R20 gives the block, the configuration it reads (R31), the
outputs a model keeps as histories (R46), and the inputs still to come; the reasons a step can stop; the state after reset. -/

namespace Sys2Proof.Machine

/-- The window memory as a sparse list of (address, word): address `32*ch + k` for slot `k` of channel `ch`. The cell is one
16-bit sample, not a byte, because the memory is word-addressed and has no byte order (20_memory.md R60, R64). Log 1. -/
abbrev Memory := List (Nat × Sample)

/-- The four floats of one thermistor bank (10_state.md R33). -/
structure TCoef where
  a : F32
  b : F32
  c : F32
  k : F32
  deriving DecidableEq, Repr

/-- The configuration inputs CFG0 to CFG6 (10_state.md R31 to R38). -/
structure Cfg where
  vscale     : Vector F32 4
  tcoef      : Vector TCoef 4
  imbThresh  : Word32
  sensorAddr : BitVec 11
  maxCharge  : Word32
  chargeInit : Word32
  rxEnable   : Bool
  deriving DecidableEq, Repr

/-- A command of the output stream (30_encoding.md R103; "a model may keep the stream as a list of constructors"). Log 2. -/
inductive Cmd where
  | swClr (line : Line)
  | swSet (line : Line)
  | adcStart (ch : Channel)
  | adcFetch (c : BitVec 1)
  deriving DecidableEq, Repr

/-- An event of the diagnostic stream (30_encoding.md R107). Log 2. -/
inductive Event where
  | fault (kind : FaultKind) (code : BitVec 7)
  | imbalance
  deriving DecidableEq, Repr

/-- The machine. -/
structure State where
  /-- `win[ch][k]` (20_memory.md R60). -/
  win : Memory
  /-- `wpos[ch]` (10_state.md R22). -/
  wpos : Vector (BitVec 5) 8
  /-- `mean_q5[ch]`, 32 times the mean (10_state.md R21). -/
  meanQ5 : Vector MeanQ5 8
  /-- `vidx` (10_state.md R25). -/
  vidx : BitVec 2
  /-- `tidx` (10_state.md R25). -/
  tidx : BitVec 2
  /-- `sw[line]`, true when asserted (10_state.md R29). -/
  sw : Vector Bool 16
  /-- `last_mA`, signed (10_state.md R23). -/
  lastMA : Word32
  /-- `prev_ms` (10_state.md R28). -/
  prevMs : Word32
  /-- `prev_valid` (10_state.md R27). -/
  prevValid : Bool
  /-- `charge`, signed (10_state.md R24). -/
  charge : Word32
  /-- The configuration inputs (10_state.md R31). -/
  cfg : Cfg
  /-- The command stream, oldest first (00_scope.md R15). Log 2. -/
  cmds : List Cmd
  /-- The event stream, oldest first (00_scope.md R15). Log 2. -/
  events : List Event
  /-- The values the read port has returned, oldest first (30_encoding.md R108): the model's own record. Log 3. -/
  reads : List Word32
  /-- The inputs still to come, the next one first: the model's own field. Log 4. -/
  inputs : List Input
  deriving DecidableEq, Repr

/-- The block raises no exception and never halts (60_exceptions.md R230), so there is no fault. Log 18. -/
inductive Fault
  deriving DecidableEq, Repr

/-- Why a step is refused: the input has no meaning. Safe: the machine stops where the spec gives nothing. -/
inductive Refusal where
  /-- Raised by exec for an instruction without a meaning; no arm uses it. Safe. -/
  | notModelled (mnemonic : String)
  /-- Raised by step on a frame with `dlc` in 9..15, which "cannot be presented; a model refuses" it (30_encoding.md R109 (7)).
  Safe. Log 19. -/
  | dlcOver8
  /-- Raised by step on a frame with a 29-bit identifier (30_encoding.md R109 (7)). Safe. Log 19. -/
  | extendedId
  /-- Raised by step on a remote frame (30_encoding.md R109 (7)). Safe. Log 19. -/
  | remoteFrame
  /-- Raised by step on a bench command word that is never emitted (30_encoding.md R109, U25). Safe. Log 6. -/
  | neverEmittedCmd
  /-- Raised by step on a bench event word that is never emitted (30_encoding.md R109, U25). Safe. Log 6. -/
  | neverEmittedEvt
  deriving DecidableEq, Repr

/-- The configuration right after reset. The spec gives no value: "No reset value: it is an input" (10_state.md R32 to R38);
DESIGN CHOICE, every field 0. Unsafe. Log 8. -/
def Cfg.initial : Cfg where
  vscale := Vector.replicate 4 0#32
  tcoef := Vector.replicate 4 { a := 0#32, b := 0#32, c := 0#32, k := 0#32 }
  imbThresh := 0#32
  sensorAddr := 0#11
  maxCharge := 0#32
  chargeInit := 0#32
  rxEnable := false

/-- The machine right after reset: 70_reset_and_hazards.md R271. The charge is `min(max(cfg.charge_init, 0),
cfg.max_charge)` (R273) of the configuration above, which is 0. The streams are empty (log 2, log 3) and no input is to come
(log 4). -/
def State.reset : State where
  win := []
  wpos := Vector.replicate 8 0#5
  meanQ5 := Vector.replicate 8 0#21
  vidx := 0#2
  tidx := 0#2
  sw := Vector.replicate 16 false
  lastMA := 0#32
  prevMs := 0#32
  prevValid := false
  charge := BitVec.ofInt 32 (resetCharge Cfg.initial.chargeInit.toInt Cfg.initial.maxCharge.toInt)
  cfg := Cfg.initial
  cmds := []
  events := []
  reads := []
  inputs := []

end Sys2Proof.Machine
end

