-- ==== Sys2Proof/Machine/Ops.lean ====
section
/-! DEFINITION. The named operations over memory, registers, switch lines and the output streams. Every instruction is
written over these. -/

namespace Sys2Proof.Machine

/-! Window memory. -/

/-- What an address that is not listed reads as: 0, the reset value of every word (20_memory.md R60, R63). -/
def Memory.unlisted : Sample := 0#16

/-- The number of words of the window memory: 8 channels of 32 slots (20_memory.md R60). -/
def Memory.size : Nat := 256

/-- The word at an address. -/
def Memory.read (m : Memory) (a : Nat) : Sample :=
  match m with
  | [] => Memory.unlisted
  | (b, v) :: rest => if a = b then v else Memory.read rest a

/-- Put a word into the sorted list; the unlisted value takes the entry out. -/
def Memory.write (m : Memory) (a : Nat) (v : Sample) : Memory :=
  match m with
  | [] => if v = Memory.unlisted then [] else [(a, v)]
  | (b, w) :: rest =>
    if a < b then (if v = Memory.unlisted then (b, w) :: rest else (a, v) :: (b, w) :: rest)
    else if a = b then (if v = Memory.unlisted then rest else (a, v) :: rest)
    else (b, w) :: Memory.write rest a v

/-- The canonical form: addresses strictly rising, all below the memory's size, no entry equal to what an unlisted address
reads as. `lo` is the least address the first entry may have. -/
def Memory.wfFrom (lo : Nat) : Memory → Bool
  | [] => true
  | (a, v) :: rest => decide (lo ≤ a) && decide (a < Memory.size) && decide (v ≠ Memory.unlisted) && Memory.wfFrom (a + 1) rest

/-- The canonical form of the window memory. -/
def Memory.wf (m : Memory) : Bool := Memory.wfFrom 0 m

/-- The address of slot `k` of channel `ch`. -/
def slotAddr (ch : Channel) (k : BitVec 5) : Nat := 32 * ch.toNat + k.toNat

/-- `WinRead(ch, k)` (20_memory.md R61). -/
def State.winRead (s : State) (ch : Channel) (k : BitVec 5) : Sample := s.win.read (slotAddr ch k)

/-- `WinWrite(ch, k, v)` (20_memory.md R61). -/
def State.winWrite (s : State) (ch : Channel) (k : BitVec 5) (v : Sample) : State :=
  { s with win := s.win.write (slotAddr ch k) v }

/-- The sum of the 32 slots of a channel, on mathematical integers (40_sampler.md R133, 00_scope.md R18 (3)). -/
def State.winSum (s : State) (ch : Channel) : Int :=
  ((List.range Config.win).map fun k => (s.winRead ch (BitVec.ofNat 5 k)).toInt).sum

/-! Registers. -/

/-- `wpos[ch]` (10_state.md R22). -/
def State.wposAt (s : State) (ch : Channel) : BitVec 5 := s.wpos[ch.toNat]'ch.isLt

/-- `wpos[ch] <- v` (10_state.md R22). -/
def State.setWpos (s : State) (ch : Channel) (v : BitVec 5) : State :=
  { s with wpos := s.wpos.set ch.toNat v ch.isLt }

/-- `mean_q5[ch]` (10_state.md R21). -/
def State.meanAt (s : State) (ch : Channel) : MeanQ5 := s.meanQ5[ch.toNat]'ch.isLt

/-- `mean_q5[ch] <- v` (10_state.md R21). -/
def State.setMean (s : State) (ch : Channel) (v : MeanQ5) : State :=
  { s with meanQ5 := s.meanQ5.set ch.toNat v ch.isLt }

/-- The exact channel mean `mean_q5[ch] / 32` (10_state.md R21, 41_accessor.md R171). -/
def State.mean (s : State) (ch : Channel) : Rat := ((s.meanAt ch).toInt : Rat) / 32

/-- `vidx <- (vidx + 1) mod 4; tidx <- (tidx + 1) mod 4` (40_sampler.md R136). -/
def State.advance (s : State) : State := { s with vidx := s.vidx + 1#2, tidx := s.tidx + 1#2 }

/-- The level of a switch line (10_state.md R29). -/
def State.swAt (s : State) (line : Line) : Bool := s.sw[line.toNat]'line.isLt

/-- `sw[line] <- v` (20_memory.md R67). -/
def State.setSw (s : State) (line : Line) (v : Bool) : State :=
  { s with sw := s.sw.set line.toNat v line.isLt }

/-- The four registers FRAME.DATA writes (42_decoder.md R205). -/
def State.setDecoder (s : State) (lastMA prevMs : Word32) (prevValid : Bool) (charge : Word32) : State :=
  { s with lastMA := lastMA, prevMs := prevMs, prevValid := prevValid, charge := charge }

/-- Every piece of block state at its reset value for the configuration in force (70_reset_and_hazards.md R270, R271); the
configuration, the streams and the inputs are not touched (R274). -/
def State.resetBlock (s : State) : State :=
  { s with
    win := [], wpos := Vector.replicate 8 0#5, meanQ5 := Vector.replicate 8 0#21, vidx := 0#2, tidx := 0#2,
    sw := Vector.replicate 16 false, lastMA := 0#32, prevMs := 0#32, prevValid := false,
    charge := BitVec.ofInt 32 (resetCharge s.cfg.chargeInit.toInt s.cfg.maxCharge.toInt) }

/-! Output streams. -/

/-- `out CMD(args)` (00_scope.md R14). -/
def State.emitCmd (s : State) (c : Cmd) : State := { s with cmds := s.cmds ++ [c] }

/-- `raise`, written `emit EV(...)` (00_scope.md R14): the one thing this hardware has for taking an exception. It appends
one event and changes nothing else: no register is saved, no mode changes, no control is transferred (60_exceptions.md R239),
so there is no return from it (R240). -/
def State.emitEvent (s : State) (e : Event) : State := { s with events := s.events ++ [e] }

/-- The value a read puts on `rd_data` (30_encoding.md R108). Log 3. -/
def State.emitRead (s : State) (v : Word32) : State := { s with reads := s.reads ++ [v] }

/-- SW_CLR: the command goes out and the line goes to 0 (20_memory.md R67). -/
def State.swClr (s : State) (line : Line) : State := (s.emitCmd (.swClr line)).setSw line false

/-- SW_SET: the command goes out and the line goes to 1 (20_memory.md R67). -/
def State.swSet (s : State) (line : Line) : State := (s.emitCmd (.swSet line)).setSw line true

/-! Configuration. -/

/-- One member of a coefficient set replaced (10_state.md R33, R40). -/
def TCoef.put (t : TCoef) (m : CoefMember) (v : F32) : TCoef :=
  match m with
  | .a => { t with a := v }
  | .b => { t with b := v }
  | .c => { t with c := v }
  | .k => { t with k := v }

/-- One member of a coefficient set (10_state.md R33). -/
def TCoef.pick (t : TCoef) (m : CoefMember) : F32 :=
  match m with
  | .a => t.a
  | .b => t.b
  | .c => t.c
  | .k => t.k

/-- `cfg.vscale[b]` (10_state.md R32). -/
def Cfg.vscaleAt (c : Cfg) (b : BitVec 2) : F32 := c.vscale[b.toNat]'b.isLt

/-- `cfg.tcoef[b]` (10_state.md R33). -/
def Cfg.tcoefAt (c : Cfg) (b : BitVec 2) : TCoef := c.tcoef[b.toNat]'b.isLt

/-- The configuration with one field, or one array element, replaced (10_state.md R40). -/
def Cfg.put (c : Cfg) : CfgWrite → Cfg
  | .vscale b v => { c with vscale := c.vscale.set b.toNat v b.isLt }
  | .tcoef b m v => { c with tcoef := c.tcoef.set b.toNat ((c.tcoefAt b).put m v) b.isLt }
  | .imbThresh v => { c with imbThresh := v }
  | .sensorAddr v => { c with sensorAddr := v }
  | .maxCharge v => { c with maxCharge := v }
  | .chargeInit v => { c with chargeInit := v }
  | .rxEnable v => { c with rxEnable := v }

/-- The configuration replaced. -/
def State.setCfg (s : State) (c : Cfg) : State := { s with cfg := c }

/-! Outputs that follow the state. -/

/-- The output `rx_en`, equal to `cfg.rx_enable` at all times (42_decoder.md R208). -/
def State.rxEn (s : State) : Bool := s.cfg.rxEnable

/-- The pin of a switch line and the level it is driven to, under the OPEN `SW_PIN_MAP` (20_memory.md R66). Log 11. -/
def State.pinLevel (s : State) (line : Line) : Nat × Bool :=
  ((Config.swPinMap line).1, if s.swAt line then (Config.swPinMap line).2 else !(Config.swPinMap line).2)

/-- The command word (30_encoding.md R103 to R106). -/
def Cmd.word : Cmd → BitVec 6
  | .swClr line => 0b00#2 ++ line
  | .swSet line => 0b01#2 ++ line
  | .adcStart ch => 0b10#2 ++ (0#1 ++ ch)
  | .adcFetch c => 0b11#2 ++ (0#3 ++ c)

/-- The converter a command is addressed to (20_memory.md R68). -/
def Cmd.converter : Cmd → Option (BitVec 1)
  | .swClr _ => none
  | .swSet _ => none
  | .adcStart ch => some (converterOf ch)
  | .adcFetch c => some c

/-- The bus address of a converter, an OPEN parameter no rule reads (20_memory.md R68). Log 11. -/
def converterAddr (c : BitVec 1) : Nat := if c = 0#1 then Config.adcAddrV else Config.adcAddrT

/-- The event word (30_encoding.md R107). -/
def Event.word : Event → BitVec 11
  | .fault kind code => 0#1 ++ (kind.number ++ code)
  | .imbalance => 0x400#11

/-! The inputs still to come (log 4). -/

/-- The inputs replaced. -/
def State.setInputs (s : State) (is : List Input) : State := { s with inputs := is }

end Sys2Proof.Machine
end

