-- ==== Sys2Proof/Machine/Flags.lean ====
section
/-! DEFINITION. The conditions an operation computes from the state. The block has no condition codes and no sticky flags
(10_state.md R30); what it has is `prev_valid`, which selects the elapsed time, the wrap of `vidx`, and the imbalance
condition, which is an event and no flag. -/

namespace Sys2Proof.Machine

/-- The elapsed time of a Data frame, in milliseconds: the 32-bit modular difference when a previous timestamp is valid, the
nominal first interval otherwise (42_decoder.md R199). -/
def State.elapsed (s : State) (nowMs : Word32) : Nat :=
  if s.prevValid then (nowMs - s.prevMs).toNat else Config.firstElapsedMs

/-- The larger of two and so of four bank means, `max` of 40_sampler.md R141. -/
def State.hiMean (s : State) : Int :=
  max (max (s.meanAt 0#3).toInt (s.meanAt 1#3).toInt) (max (s.meanAt 2#3).toInt (s.meanAt 3#3).toInt)

/-- The smallest of the four voltage bank means, `min` of 40_sampler.md R141. -/
def State.loMean (s : State) : Int :=
  min (min (s.meanAt 0#3).toInt (s.meanAt 1#3).toInt) (min (s.meanAt 2#3).toInt (s.meanAt 3#3).toInt)

/-- The imbalance condition `hi - lo > 32 * cfg.imb_thresh`, exact and strict (40_sampler.md R141, R142). -/
def State.imbalanced (s : State) (thresh : Word32) : Bool := s.hiMean - s.loMean > 32 * thresh.toInt

/-- The check is made on exactly the ticks that start with `vidx = 3` (40_sampler.md R141). -/
def wrapsAt (oldV : BitVec 2) : Bool := oldV = 3#2

end Sys2Proof.Machine
end

