-- ==== Sys2Proof/Machine/Accessor.lean ====
section
/-! DEFINITION. The four reads (41_accessor.md). None writes any state of the block; the value returned is recorded in the
model's `reads` history (log 3). -/

namespace Sys2Proof.Machine

/-- The float `+0.0` a read returns for an index outside `[0, 3]` (41_accessor.md R175). -/
def plusZero : F32 := 0#32

/-- The value of RD.VOLT under a product `mul` (41_accessor.md R173; "holds for any choice" of `ACC_MUL`, R172). -/
def State.voltageWith (mul : Rat → F32 → F32) (s : State) (i : Word32) : F32 :=
  match bankIndex i with
  | some b => mul (s.mean (voltChannel b)) (s.cfg.vscaleAt b)
  | none => plusZero

/-- The value of RD.TEMP under a product `mul` (41_accessor.md R174). -/
def State.temperatureWith (mul : Rat → F32 → F32) (s : State) (i : Word32) : F32 :=
  match bankIndex i with
  | some b => mul (s.mean (thermChannel b)) ((s.cfg.tcoefAt b).pick Config.tempCoefSel)
  | none => plusZero

/-- The value of RD.VOLT, the product being the OPEN `ACC_MUL` (41_accessor.md R172, R173). Log 10. -/
def State.voltage (s : State) (i : Word32) : F32 := s.voltageWith Config.accMul i

/-- The value of RD.TEMP, the product being the OPEN `ACC_MUL` (41_accessor.md R172, R174). Log 10. -/
def State.temperature (s : State) (i : Word32) : F32 := s.temperatureWith Config.accMul i

/-- RD.VOLT (41_accessor.md R173). -/
def execRdVolt (i : Word32) (s : State) : Host.Outcome State Fault Refusal := .next (s.emitRead (s.voltage i))

/-- RD.TEMP (41_accessor.md R174). -/
def execRdTemp (i : Word32) (s : State) : Host.Outcome State Fault Refusal := .next (s.emitRead (s.temperature i))

/-- RD.CUR (41_accessor.md R176). -/
def execRdCur (s : State) : Host.Outcome State Fault Refusal := .next (s.emitRead s.lastMA)

/-- RD.CHG (41_accessor.md R177). -/
def execRdChg (s : State) : Host.Outcome State Fault Refusal := .next (s.emitRead s.charge)

end Sys2Proof.Machine
end

