-- ==== Sys2Proof/Machine/Control.lean ====
section
/-! DEFINITION. RESET (70_reset_and_hazards.md R270) and CFG.WRITE (10_state.md R40). -/

namespace Sys2Proof.Machine

/-- RESET (70_reset_and_hazards.md R270). -/
def execReset (s : State) : Host.Outcome State Fault Refusal := .next s.resetBlock

/-- CFG.WRITE: one field replaced, nothing else changed, no check of the value (10_state.md R40, R41). -/
def execCfgWrite (w : CfgWrite) (s : State) : Host.Outcome State Fault Refusal := .next (s.setCfg (s.cfg.put w))

end Sys2Proof.Machine
end

