-- ==== Sys2Proof/Machine/FrameDecoder.lean ====
section
/-! DEFINITION. The four classes of FRAME (42_decoder.md). The class itself is resolved before the operation starts
(30_encoding.md R100, log 21). -/

namespace Sys2Proof.Machine

/-- FRAME.IGNORE: "Pseudocode: nothing" (42_decoder.md R192). -/
def execFrameIgnore (_ : Frame) (s : State) : Host.Outcome State Fault Refusal := .next s

/-- FRAME.SHORT: "Pseudocode: nothing" (42_decoder.md R195). -/
def execFrameShort (_ : Frame) (s : State) : Host.Outcome State Fault Refusal := .next s

/-- FRAME.FAULT: one EV_FAULT with the code and its kind under `FAULT_MAP` (42_decoder.md R196). -/
def execFrameFault (f : Frame) (s : State) : Host.Outcome State Fault Refusal :=
  .next (s.emitEvent (.fault (Config.faultMap f.faultCode) f.faultCode))

/-- The state after a FRAME.DATA, in the normative order of all effects (42_decoder.md R205). -/
def State.accept (s : State) (f : Frame) : State :=
  let delta := chargeDelta f.current (s.elapsed f.nowMs)
  let charge := updatedCharge s.charge.toInt s.cfg.maxCharge.toInt delta
  s.setDecoder (BitVec.ofInt 32 f.current) f.nowMs true (BitVec.ofInt 32 charge)

/-- FRAME.DATA (42_decoder.md R205). -/
def execFrameData (f : Frame) (s : State) : Host.Outcome State Fault Refusal := .next (s.accept f)

end Sys2Proof.Machine
end

