-- ==== Sys2Proof/Machine/Outputs.lean ====
section
/-! DEFINITION. The output commands and the events as operations of their own (00_scope.md R6). TICK and FRAME.FAULT emit
them through the same shared operations; on their own only the model's bench inputs start them (log 6). -/

namespace Sys2Proof.Machine

/-- SW_CLR (20_memory.md R67). -/
def execSwClr (line : Line) (s : State) : Host.Outcome State Fault Refusal := .next (s.swClr line)

/-- SW_SET (20_memory.md R67). -/
def execSwSet (line : Line) (s : State) : Host.Outcome State Fault Refusal := .next (s.swSet line)

/-- ADC_START: the command goes out; the conversion it begins is the environment's and the block does not track it
(20_memory.md R68, 10_state.md R44). Log 16. -/
def execAdcStart (ch : Channel) (s : State) : Host.Outcome State Fault Refusal := .next (s.emitCmd (.adcStart ch))

/-- ADC_FETCH: the command goes out; the answer is an input of the TICK that issues it (20_memory.md R68, 30_encoding.md
R102). Log 16. -/
def execAdcFetch (c : BitVec 1) (s : State) : Host.Outcome State Fault Refusal := .next (s.emitCmd (.adcFetch c))

/-- EV_FAULT: one event, nothing else (60_exceptions.md R232, 00_scope.md R14). -/
def execEvFault (kind : FaultKind) (code : BitVec 7) (s : State) : Host.Outcome State Fault Refusal :=
  .next (s.emitEvent (.fault kind code))

/-- EV_IMBALANCE: one event, nothing else (60_exceptions.md R234, 00_scope.md R14). -/
def execEvImbalance (s : State) : Host.Outcome State Fault Refusal := .next (s.emitEvent .imbalance)

end Sys2Proof.Machine
end

