-- ==== Sys2Proof/Machine/Sampler.lean ====
section
/-! DEFINITION. TICK and WIN.PUSH (40_sampler.md). -/

namespace Sys2Proof.Machine

/-- The push of one sample: write the slot, advance the write position modulo 32, recompute the mean numerator over all 32
slots (40_sampler.md R133). -/
def State.push (s : State) (ch : Channel) (code : Sample) : State :=
  let s1 := s.winWrite ch (s.wposAt ch) code
  let s2 := s1.setWpos ch (s.wposAt ch + 1#5)
  s2.setMean ch (BitVec.ofInt 21 (s2.winSum ch))

/-- WIN.PUSH (40_sampler.md R133). -/
def execWinPush (ch : Channel) (code : Sample) (s : State) : Host.Outcome State Fault Refusal :=
  .next (s.push ch code)

/-- Steps 1 and 2 for one converter: a ready answer is pushed, a not-ready one leaves the window as it is (40_sampler.md
R134, R135). -/
def State.store (s : State) (ch : Channel) : Rsp → State
  | .notReady => s
  | .ready code => s.push ch code

/-- The channels in ascending order. -/
def allChannels : List Channel := [0#3, 1#3, 2#3, 3#3, 4#3, 5#3, 6#3, 7#3]

/-- SW_CLR to both lines of a channel (40_sampler.md R138). -/
def State.clearPair (s : State) (ch : Channel) : State := (s.swClr (lineOf ch 0#1)).swClr (lineOf ch 1#1)

/-- SW_SET to both lines of a channel (40_sampler.md R138). -/
def State.assertPair (s : State) (ch : Channel) : State := (s.swSet (lineOf ch 0#1)).swSet (lineOf ch 1#1)

/-- Step 3, routing: de-assert the lines of every channel but the two selected ones, in ascending order, then assert the
four lines of those two (40_sampler.md R138). -/
def State.route (s : State) (nv nt : Channel) : State :=
  let cleared := (allChannels.filter fun ch => ch ≠ nv ∧ ch ≠ nt).foldl State.clearPair s
  (cleared.assertPair nv).assertPair nt

/-- Step 5: EV_IMBALANCE at a wrap when the spread exceeds the threshold (40_sampler.md R141). -/
def State.checkImbalance (s : State) (oldV : BitVec 2) (thresh : Word32) : State :=
  if wrapsAt oldV && s.imbalanced thresh then s.emitEvent .imbalance else s

/-- The state after a TICK, in the normative order of all effects (40_sampler.md R143). -/
def State.tick (s : State) (rsp0 rsp1 : Rsp) : State :=
  let fetched := (s.emitCmd (.adcFetch 0#1)).emitCmd (.adcFetch 1#1)
  let stored := (fetched.store (voltChannel s.vidx) rsp0).store (thermChannel s.tidx) rsp1
  let advanced := stored.advance
  let nv := voltChannel advanced.vidx
  let nt := thermChannel advanced.tidx
  let routed := advanced.route nv nt
  let started := (routed.emitCmd (.adcStart nv)).emitCmd (.adcStart nt)
  started.checkImbalance s.vidx s.cfg.imbThresh

/-- TICK (40_sampler.md R143). -/
def execTick (rsp0 rsp1 : Rsp) (s : State) : Host.Outcome State Fault Refusal := .next (s.tick rsp0 rsp1)

end Sys2Proof.Machine
end

