-- ==== Sys2Proof/Machine/Dispatch.lean ====
section
/-! DEFINITION. One arm per instruction. -/

namespace Sys2Proof.Machine

def exec (i : Instr) (s : State) : Host.Outcome State Fault Refusal :=
  match i with
  | .reset => Sys2Proof.Machine.execReset s
  | .tick rsp0 rsp1 => Sys2Proof.Machine.execTick rsp0 rsp1 s
  | .winPush ch code => Sys2Proof.Machine.execWinPush ch code s
  | .frameIgnore f => Sys2Proof.Machine.execFrameIgnore f s
  | .frameShort f => Sys2Proof.Machine.execFrameShort f s
  | .frameFault f => Sys2Proof.Machine.execFrameFault f s
  | .frameData f => Sys2Proof.Machine.execFrameData f s
  | .rdVolt idx => Sys2Proof.Machine.execRdVolt idx s
  | .rdTemp idx => Sys2Proof.Machine.execRdTemp idx s
  | .rdCur => Sys2Proof.Machine.execRdCur s
  | .rdChg => Sys2Proof.Machine.execRdChg s
  | .cfgWrite w => Sys2Proof.Machine.execCfgWrite w s
  | .swClr line => Sys2Proof.Machine.execSwClr line s
  | .swSet line => Sys2Proof.Machine.execSwSet line s
  | .adcStart ch => Sys2Proof.Machine.execAdcStart ch s
  | .adcFetch c => Sys2Proof.Machine.execAdcFetch c s
  | .evFault kind code => Sys2Proof.Machine.execEvFault kind code s
  | .evImbalance => Sys2Proof.Machine.execEvImbalance s

end Sys2Proof.Machine
end

