-- ==== Sys2Proof/Machine/Fetch.lean ====
section
/-! DEFINITION. Taking the next input (log 4). The block fetches no instructions (20_memory.md R78): what stands in the place
of a fetch is the next request the environment presents, decoded under the configuration in force when the operation starts
(10_state.md R39). -/

namespace Sys2Proof.Machine

/-- What the next input starts, and the state in which it is performed: the input taken from the queue. -/
inductive Fetched where
  /-- No input, or `req = 0b000`: nothing starts (30_encoding.md R91). -/
  | idle (s : State)
  /-- An operation and the state it starts in. -/
  | run (i : Instr) (s : State)
  /-- An input without a meaning (30_encoding.md R109). -/
  | refuse (r : Refusal)
  deriving DecidableEq, Repr

/-- The name under which an input without a meaning is refused. -/
def refusalOf : DecodeError → Refusal
  | .dlcOver8 => .dlcOver8
  | .extendedId => .extendedId
  | .remoteFrame => .remoteFrame
  | .neverEmittedCmd => .neverEmittedCmd
  | .neverEmittedEvt => .neverEmittedEvt

/-- Take the next input. Of a simultaneous tick and frame the second stays at the head of the queue, so that nothing is
performed between the two: DESIGN CHOICE, log 5; the spec says only that both are performed, in either order (30_encoding.md R92,
20_memory.md R73). -/
def fetch (s : State) : Fetched :=
  match s.inputs with
  | [] => .idle s
  | inp :: rest =>
    match decodeInput s.cfg.sensorAddr inp with
    | .error e => .refuse (refusalOf e)
    | .ok .idle => .idle (s.setInputs rest)
    | .ok (.one i) => .run i (s.setInputs rest)
    | .ok (.two i second) => .run i (s.setInputs (second :: rest))

end Sys2Proof.Machine
end

