-- ==== Sys2Proof/Machine/Step.lean ====
section
/-! DEFINITION. One step: one operation of the block's total order (20_memory.md R70, R73). -/

namespace Sys2Proof.Machine

/-- Perform the next operation. An input that starts nothing is taken and changes nothing else; with no input to come the
step changes nothing at all (30_encoding.md R91). -/
def step (s : State) : Host.Outcome State Fault Refusal :=
  match fetch s with
  | .idle s' => .next s'
  | .run i s' => exec i s'
  | .refuse r => .refused r

/-- The state with a table word presented as the very next input, on the port `inputOfTableWord` names (log 7). -/
def State.withFetchWord (s : State) (nbits w : Nat) : State :=
  match inputOfTableWord s.cfg.sensorAddr nbits w with
  | none => s
  | some inp => s.setInputs (inp :: s.inputs)

end Sys2Proof.Machine
end

