-- ==== Sys2Proof/Machine/AccMul.lean ====
section
/-! DEFINITION. The default the spec proposes for the OPEN `ACC_MUL`, "for a model that wants concrete numbers": the exact
mean converted to binary32, multiplied in IEEE 754 binary32, rounded to nearest even (41_accessor.md R172, D27). No
instruction uses it: RD.VOLT and RD.TEMP use the OPEN constant `Config.accMul`. Log 10. -/

namespace Sys2Proof.Machine

/-- The sign bit of a binary32 pattern. -/
def f32Sign (x : F32) : Bool := x.getLsbD 31

/-- The biased exponent field of a binary32 pattern. -/
def f32Exp (x : F32) : Nat := (x.extractLsb' 23 8).toNat

/-- The fraction field of a binary32 pattern. -/
def f32Frac (x : F32) : Nat := (x.extractLsb' 0 23).toNat

/-- The significand of a finite binary32 number: its value is `significand * 2^f32Scale`, with the sign. -/
def f32Sig (x : F32) : Nat := if f32Exp x = 0 then f32Frac x else 2 ^ 23 + f32Frac x

/-- The exponent of the last place of a finite binary32 number. -/
def f32Scale (x : F32) : Int := (max (f32Exp x) 1 : Nat) - 150

/-- `m / 2^n` rounded to the nearest integer, ties to even. -/
def shiftRightEven (m n : Nat) : Nat :=
  let q := m / 2 ^ n
  let r := m % 2 ^ n
  if 2 ^ n < 2 * r ∨ (2 ^ n = 2 * r ∧ q % 2 = 1) then q + 1 else q

/-- The binary32 number nearest to `m * 2^e`, ties to even, with the given sign; beyond the largest finite number,
infinity. A carry out of the significand runs into the exponent field, which is the next binade. -/
def roundF32 (sign : Bool) (m : Nat) (e : Int) : F32 :=
  let place := max (e + (m.log2 : Int) - 23) (-149)
  let sig := if place ≤ e then m * 2 ^ (e - place).toNat else shiftRightEven m (place - e).toNat
  let magnitude := min ((place + 149).toNat * 2 ^ 23 + sig) 0x7F800000
  BitVec.ofBool sign ++ BitVec.ofNat 31 (if m = 0 then 0 else magnitude)

/-- The value of a finite binary32 number. -/
def f32Value (x : F32) : Rat := (if f32Sign x then -1 else 1) * (f32Sig x : Rat) * 2 ^ f32Scale x

/-- A NaN whose sign and fraction below the quiet bit are free (`Config.nanBits`). -/
def freeNaN (m : Rat) (k : F32) : F32 :=
  BitVec.ofBool (Config.nanBits m k).1 ++ (0xFF#8 ++ (1#1 ++ (Config.nanBits m k).2))

/-- The default product of a channel mean `m` and the coefficient `k` (41_accessor.md R172). `m` is an integer of at most 21
bits over 32 (R171), so its conversion is exact and one rounding remains; a mean of 0 converts to `+0.0`. -/
def accMulDefault (m : Rat) (k : F32) : F32 :=
  let q : Int := (m * 32).floor
  let sign := xor (decide (q < 0)) (f32Sign k)
  if f32Exp k = 255 then
    if f32Frac k ≠ 0 ∨ q = 0 then freeNaN m k
    else BitVec.ofBool sign ++ 0x7F800000#31
  else roundF32 sign (q.natAbs * f32Sig k) (f32Scale k - 5)

end Sys2Proof.Machine
end

