-- ==== Sys2Proof/Safety.lean ====
section
/-! DEFINITION. What counts as a safe run, in the terms the claims use: the spec's invariants (10_state.md R50 to R53), the
legal inputs, the replay of a command stream on the switch lines, and the premises on the converters (40_sampler.md R132). -/

namespace Sys2Proof.Machine

/-- Window invariant: the memory is in canonical form and every `mean_q5` is the sum of its channel's 32 slots (10_state.md
R50; that `wpos` is in 0..31 is its type). -/
def State.WindowInv (s : State) : Prop := s.win.wf = true ∧ ∀ ch : Channel, (s.meanAt ch).toInt = s.winSum ch

/-- Index invariant (10_state.md R53). -/
def State.IndexInv (s : State) : Prop := s.vidx = s.tidx

/-- The line is one of the four lines of channels `nv` and `nt` (20_memory.md R66). -/
def lineOfPair (nv nt : Channel) (line : Line) : Bool :=
  line.toNat / 2 == nv.toNat || line.toNat / 2 == nt.toNat

/-- The lines of the two channels the indices name. -/
def State.routedLine (s : State) (line : Line) : Bool := lineOfPair (voltChannel s.vidx) (thermChannel s.tidx) line

/-- Switch invariant: no TICK since RESET and no line asserted, or exactly the four lines of the two channels the indices
name (10_state.md R51). -/
def State.SwitchInv (s : State) : Prop :=
  (s.vidx = 0#2 ∧ s.tidx = 0#2 ∧ ∀ line : Line, s.swAt line = false) ∨ ∀ line : Line, s.swAt line = s.routedLine line

/-- The legal range of `cfg.max_charge` (10_state.md R36), the premise of every bound on the charge (R41). Log 20. -/
def Cfg.legal (c : Cfg) : Prop := 0 ≤ c.maxCharge.toInt

end Sys2Proof.Machine

namespace Sys2Proof

/-- The input is no CFG.WRITE of a `max_charge` outside its legal range (10_state.md R36, U16). -/
def Input.legal : Input → Bool
  | .cfg (.maxCharge v) => decide (0 ≤ v.toInt)
  | .cfg (.vscale _ _) => true
  | .cfg (.tcoef _ _ _) => true
  | .cfg (.imbThresh _) => true
  | .cfg (.sensorAddr _) => true
  | .cfg (.chargeInit _) => true
  | .cfg (.rxEnable _) => true
  | .req _ _ _ _ _ => true
  | .rdp _ _ => true
  | .foreign _ => true
  | .benchPush _ _ => true
  | .benchCmd _ => true
  | .benchEvt _ => true

end Sys2Proof

namespace Sys2Proof.Machine

/-- Every input to come is one an agent of 00_scope.md R7 presents. -/
def State.ExternalInputs (s : State) : Prop := ∀ inp ∈ s.inputs, inp.external = true

/-- The charge and its bound are never negative, now or after a CFG.WRITE to come (10_state.md R52). -/
def State.ChargeInv (s : State) : Prop :=
  0 ≤ s.charge.toInt ∧ s.cfg.legal ∧ ∀ inp ∈ s.inputs, inp.legal = true

/-- The charge bound `0 ≤ charge ≤ cfg.max_charge` (10_state.md R52). -/
def State.ChargeBounded (s : State) : Prop := 0 ≤ s.charge.toInt ∧ s.charge.toInt ≤ s.cfg.maxCharge.toInt

/-- A safe state: the invariants of 10_state.md R50 to R53, under legal inputs from the agents the spec names. -/
def State.Safe (s : State) : Prop :=
  s.WindowInv ∧ s.IndexInv ∧ s.SwitchInv ∧ s.ChargeInv ∧ s.ExternalInputs

/-! The command stream on the switch matrix. -/

/-- The levels after a command takes effect (20_memory.md R67). -/
def Cmd.applyTo (levels : Vector Bool 16) : Cmd → Vector Bool 16
  | .swClr line => levels.set line.toNat false line.isLt
  | .swSet line => levels.set line.toNat true line.isLt
  | .adcStart _ => levels
  | .adcFetch _ => levels

/-- The levels after a stream of commands, in the order it gives (20_memory.md R67). -/
def swAfter (levels : Vector Bool 16) (cmds : List Cmd) : Vector Bool 16 := cmds.foldl Cmd.applyTo levels

/-- The level of a line. -/
def levelOf (levels : Vector Bool 16) (line : Line) : Bool := levels[line.toNat]'line.isLt

/-! The converters, outside the block (10_state.md R44). -/

/-- The place in the command stream, counted from `pos`, of the last ADC_START to converter `c`, with its channel. -/
def lastStartFrom (c : BitVec 1) (pos : Nat) : List Cmd → Option (Nat × Channel)
  | [] => none
  | cmd :: rest =>
    match lastStartFrom c (pos + 1) rest with
    | some found => some found
    | none =>
      match cmd with
      | .adcStart ch => if converterOf ch = c then some (pos, ch) else none
      | .swClr _ => none
      | .swSet _ => none
      | .adcFetch _ => none

/-- The last conversion started on converter `c`: its place in the command stream and its channel. It looks at the whole
command history, which RESET keeps, so a start before a RESET still counts after it: DESIGN CHOICE, the spec leaves conversions in
flight across a RESET unspecified (70_reset_and_hazards.md R274, U21). Log 22. -/
def lastStart (c : BitVec 1) (cmds : List Cmd) : Option (Nat × Channel) := lastStartFrom c 0 cmds

/-- ENV-FRESH (40_sampler.md R132): a ready answer is the result of the last conversion started on the converter, where
`result` gives each conversion, named by the place of its ADC_START in the command stream, its result. A result of any earlier,
abandoned conversion is thereby never delivered, which is ENV-ABANDON. Log 16. On the first tick after a RESET the spec lets the
answer be anything; there this premise asks for the result of the last start before the RESET, or for no ready answer when there
was none: DESIGN CHOICE, a premise for a tick that follows a tick (R274, U21). Log 22. -/
def EnvFresh (result : Nat → Sample) (cmds : List Cmd) (c : BitVec 1) (rsp : Rsp) : Prop :=
  ∀ code, rsp = .ready code → ∃ pos ch, lastStart c cmds = some (pos, ch) ∧ code = result pos

/-- The platform's condition under ENV-COLD (40_sampler.md R132): a converter answers not-ready until started. Log 16. "Until
started" counts over the whole run and not from the last RESET: DESIGN CHOICE, the spec does not say which (R274, U21). The command
history outlives a RESET, so on the first tick after a RESET in mid-run this asks nothing of a converter that was ever started.
Log 22. -/
def EnvCold (cmds : List Cmd) (c : BitVec 1) (rsp : Rsp) : Prop := lastStart c cmds = none → rsp = .notReady

end Sys2Proof.Machine
end

