-- ==== Sys2Proof/Certificates/Slice0/Obligations.lean ====
section
/-! DEFINITION. The statements about the machine, each a `def Obligations.<Name> : Prop`, and the few words they share. -/

namespace Sys2Proof.Machine

/-- Operations performed one after the other (20_memory.md R73). -/
def performAll : List Instr → State → Host.Outcome State Fault Refusal
  | [], s => .next s
  | i :: rest, s =>
    match exec i s with
    | .next t => performAll rest t
    | .fault r => .fault r
    | .refused r => .refused r

/-- The pushes of a list of samples on one channel. -/
def pushes (ch : Channel) (codes : List Sample) : List Instr := codes.map (.winPush ch)

/-- The sample a TICK stores in a channel, if any: the ready answer of converter 0 in the channel `vidx` names, of converter 1
in the channel `4 + tidx` names, under the indices with which the tick begins (40_sampler.md R131, R134). -/
def sampleFor (s : State) (rsp0 rsp1 : Rsp) (ch : Channel) : Option Sample :=
  let answer : Rsp := if ch.toNat = s.vidx.toNat then rsp0 else if ch.toNat = 4 + s.tidx.toNat then rsp1 else .notReady
  match answer with
  | .notReady => none
  | .ready code => some code

/-- The four voltage bank means are further apart than the threshold: some two of them differ by more, as rationals
(40_sampler.md R141, R142). -/
def State.spreadExceeds (s : State) (thresh : Int) : Prop :=
  ∃ i j : BitVec 2, s.mean (voltChannel i) - s.mean (voltChannel j) > (thresh : Rat)

/-- The big-endian current field of a frame less the bias (30_encoding.md R95). -/
def frameCurrent (f : Frame) : Int :=
  (f.byte 0).toNat * 2 ^ 24 + (f.byte 1).toNat * 2 ^ 16 + (f.byte 2).toNat * 2 ^ 8 + (f.byte 3).toNat - 2 ^ 31

/-- The elapsed milliseconds of a Data frame (42_decoder.md R199). -/
def elapsedMs (s : State) (f : Frame) : Int :=
  if s.prevValid then ((f.nowMs.toNat : Int) - s.prevMs.toNat) % 2 ^ 32 else 1

/-- The charge delta of a Data frame (42_decoder.md R200). -/
def frameDelta (s : State) (f : Frame) : Int := (frameCurrent f * elapsedMs s f).tdiv 360

/-- The frame on the `FRM` port: identifier, the first `dlc` bytes of the payload, clock (30_encoding.md R93, R94). -/
def portFrame (w : FrameWord) : Frame :=
  { id := w.id, data := (payloadBytes w.payload).take w.dlc.toNat, nowMs := w.nowMs }

/-- The four FRAME operations with one frame. -/
def frameOps (f : Frame) : List Instr := [.frameIgnore f, .frameShort f, .frameFault f, .frameData f]

/-- The command words of a TICK whose advanced voltage index is `v` (40_sampler.md R144). -/
def tickWords (v : Nat) : List (BitVec 6) :=
  [0x30#6, 0x31#6]
    ++ ((List.range 16).filter fun l => l ∉ [2 * v, 2 * v + 1, 8 + 2 * v, 9 + 2 * v]).map (BitVec.ofNat 6)
    ++ [BitVec.ofNat 6 (0x10 + 2 * v), BitVec.ofNat 6 (0x11 + 2 * v), BitVec.ofNat 6 (0x18 + 2 * v),
      BitVec.ofNat 6 (0x19 + 2 * v)]
    ++ [BitVec.ofNat 6 (0x20 + v), BitVec.ofNat 6 (0x24 + v)]

end Sys2Proof.Machine

open Sys2Proof Sys2Proof.Machine

/-! ## Requests, decoding, encoding -/

/-- 20_memory.md R73, 30_encoding.md R91: a step performs what the next input starts, on the state with that input taken; of
two simultaneous operations the second stays next; with no input a step changes nothing. The queue of inputs (log 4) and that the
second of two simultaneous operations stays next (log 5) are the model's choices. -/
def Obligations.StepPerformsTheDecodedOperation : Prop :=
  (∀ (s : State) (inp : Input) (rest : List Input), s.inputs = inp :: rest →
    (∀ i, decodeInput s.cfg.sensorAddr inp = .ok (.one i) → step s = exec i { s with inputs := rest }) ∧
    (∀ i second, decodeInput s.cfg.sensorAddr inp = .ok (.two i second) →
      step s = exec i { s with inputs := second :: rest }) ∧
    (decodeInput s.cfg.sensorAddr inp = .ok .idle → step s = .next { s with inputs := rest }) ∧
    (∀ e, decodeInput s.cfg.sensorAddr inp = .error e → step s = .refused (refusalOf e))) ∧
  ∀ s : State, s.inputs = [] → step s = .next s

/-- Words written out from 30_encoding.md R91, R93 to R108 and the examples of R104 to R107 decode to the operation they stand
for. -/
def Obligations.SampleWordsDecode : Prop :=
  decodeInput 0x3C2#11 (.req 0b100#3 0#17 0#17 noFrame false) = .ok (.one .reset) ∧
  decodeInput 0x3C2#11 (.req 0b001#3 0x10C80#17 0#17 noFrame false) = .ok (.one (.tick (.ready 3200#16) .notReady)) ∧
  decodeInput 0x3C2#11 (.req 0b010#3 0#17 0#17 ⟨0x3C2#11, 8#4, 0xFFFFFFFF85000000#64, 77#32⟩ false) =
    .ok (.one (.frameFault ⟨0x3C2#11, [0xFF#8, 0xFF#8, 0xFF#8, 0xFF#8, 0x85#8, 0#8, 0#8, 0#8], 77#32⟩)) ∧
  decodeInput 0x3C2#11 (.req 0b010#3 0#17 0#17 ⟨0x3C2#11, 5#4, 0x800003E800AABBCC#64, 5#32⟩ false) =
    .ok (.one (.frameData ⟨0x3C2#11, [0x80#8, 0#8, 3#8, 0xE8#8, 0#8], 5#32⟩)) ∧
  decodeInput 0x3C2#11 (.rdp 0b01#2 7#32) = .ok (.one (.rdTemp 7#32)) ∧
  decodeInput 0x3C2#11 (.rdp 0b11#2 7#32) = .ok (.one .rdChg) ∧
  decodeInput 0x3C2#11 (.cfg (.sensorAddr 0x100#11)) = .ok (.one (.cfgWrite (.sensorAddr 0x100#11))) ∧
  decodeCmd 0x02#6 = some (.swClr 2#4) ∧ decodeCmd 0x1B#6 = some (.swSet 11#4) ∧
  decodeCmd 0x21#6 = some (.adcStart 1#3) ∧ decodeCmd 0x25#6 = some (.adcStart 5#3) ∧
  decodeCmd 0x30#6 = some (.adcFetch 0#1) ∧ decodeCmd 0x31#6 = some (.adcFetch 1#1) ∧
  decodeEvt 0x1C2#11 = some (.evFault .failsafe 66#7) ∧ decodeEvt 0x400#11 = some .evImbalance

/-- Decoding the encoding of a well-formed instruction gives it back, for every instruction, operand and sensor address. -/
def Obligations.DecodeOfEncodeIsTheInstruction : Prop :=
  ∀ (addr : BitVec 11) (i : Instr), i.wf addr = true → decodeInput addr (encode i) = .ok (.one i)

/-- Whatever the ports carry, an instruction the decoder yields is well formed for the sensor address in force. -/
def Obligations.DecodedInstructionsAreWellFormed : Prop :=
  ∀ (addr : BitVec 11) (inp : Input) (i : Instr),
    (decodeInput addr inp = .ok (.one i) ∨ ∃ second, decodeInput addr inp = .ok (.two i second)) → i.wf addr = true

/-- 30_encoding.md R100: a frame request resolves to one class by the ordered tests of identifier, length and `P[24]`; and the
class key of the same rule (`P[24]` taken as 0 when `data[4]` is absent) decides the classes by its four patterns. -/
def Obligations.FrameResolvesByOrderedTests : Prop :=
  ∀ (addr : BitVec 11) (rsp0 rsp1 : BitVec 17) (w : FrameWord) (d : Bool), w.dlc.toNat ≤ 8 →
    (w.id ≠ addr →
      decodeInput addr (.req 0b010#3 rsp0 rsp1 w d) = .ok (.one (.frameIgnore (portFrame w)))) ∧
    (w.id = addr → w.dlc.toNat < 5 →
      decodeInput addr (.req 0b010#3 rsp0 rsp1 w d) = .ok (.one (.frameShort (portFrame w)))) ∧
    (w.id = addr → 5 ≤ w.dlc.toNat → w.payload.getLsbD 24 = true →
      decodeInput addr (.req 0b010#3 rsp0 rsp1 w d) = .ok (.one (.frameFault (portFrame w)))) ∧
    (w.id = addr → 5 ≤ w.dlc.toNat → w.payload.getLsbD 24 = false →
      decodeInput addr (.req 0b010#3 rsp0 rsp1 w d) = .ok (.one (.frameData (portFrame w)))) ∧
    (portFrame w).classKey addr =
      BitVec.ofBool (w.id == addr) ++ BitVec.ofBool (decide (5 ≤ w.dlc.toNat)) ++
        BitVec.ofBool (decide (5 ≤ w.dlc.toNat) && w.payload.getLsbD 24) ∧
    classify addr (portFrame w) =
      (let key := (portFrame w).classKey addr
       if key &&& 0x4#3 = 0x0#3 then .frameIgnore (portFrame w)
       else if key &&& 0x6#3 = 0x4#3 then .frameShort (portFrame w)
       else if key = 0b111#3 then .frameFault (portFrame w)
       else .frameData (portFrame w))

/-- 30_encoding.md R95, R96, R97 (for the default STATUS_BIT) and R101: where a frame carries at least 5 bytes, its raw current
is `P[63:32]`, its fault code `P[31:25]`, its status bit `P[24]`, and its current is `raw XOR 0x80000000` read as signed. -/
def Obligations.FrameFieldsArePayloadSlices : Prop :=
  ∀ w : FrameWord, 5 ≤ w.dlc.toNat → w.dlc.toNat ≤ 8 →
    (portFrame w).raw = w.payload.extractLsb' 32 32 ∧
    (portFrame w).status = w.payload.extractLsb' 24 8 ∧
    (portFrame w).faultCode = w.payload.extractLsb' 25 7 ∧
    (portFrame w).statusBit = w.payload.getLsbD 24 ∧
    (portFrame w).current = ((w.payload.extractLsb' 32 32 : Word32).toNat : Int) - 2 ^ 31 ∧
    (portFrame w).current = ((w.payload.extractLsb' 32 32 : Word32) ^^^ 0x80000000#32).toInt

/-- 30_encoding.md R94, R110: two frames of 5 to 8 bytes that agree on identifier, clock and `P[63:24]` start operations with
the same effect on every state, whatever their lengths and bytes 5 to 7. -/
def Obligations.BytesAfterTheStatusByteAreIgnored : Prop :=
  ∀ (addr : BitVec 11) (v w : FrameWord), 5 ≤ v.dlc.toNat → v.dlc.toNat ≤ 8 → 5 ≤ w.dlc.toNat → w.dlc.toNat ≤ 8 →
    v.id = w.id → v.nowMs = w.nowMs → v.payload.extractLsb' 24 40 = w.payload.extractLsb' 24 40 →
    ∃ i j : Instr,
      decodeInput addr (.req 0b010#3 0#17 0#17 v false) = .ok (.one i) ∧
      decodeInput addr (.req 0b010#3 0#17 0#17 w false) = .ok (.one j) ∧
      ∀ s : State, ∃ t, exec i s = .next t ∧ exec j s = .next t

/-- 30_encoding.md R91, R92: the request strobes. With `rst` RESET alone is performed and the rest is ignored; a tick alone is
TICK; no strobe starts nothing; a tick and a frame together are both performed, in either order. -/
def Obligations.RequestStrobesStartTheirOperations : Prop :=
  ∀ (addr : BitVec 11) (strobes : BitVec 3) (rsp0 rsp1 : BitVec 17) (w : FrameWord) (d : Bool),
    (strobes.getLsbD 2 = true → decodeInput addr (.req strobes rsp0 rsp1 w d) = .ok (.one .reset)) ∧
    (strobes = 0b001#3 → decodeInput addr (.req strobes rsp0 rsp1 w d) =
      .ok (.one (.tick (decodeRsp rsp0) (decodeRsp rsp1)))) ∧
    (strobes = 0b000#3 → decodeInput addr (.req strobes rsp0 rsp1 w d) = .ok .idle) ∧
    (strobes = 0b010#3 → w.dlc.toNat ≤ 8 → decodeInput addr (.req strobes rsp0 rsp1 w d) =
      .ok (.one (classify addr (portFrame w)))) ∧
    (strobes = 0b011#3 → w.dlc.toNat ≤ 8 → decodeInput addr (.req strobes rsp0 rsp1 w d) =
      .ok (if d then .two (classify addr (portFrame w)) (.req 0b001#3 rsp0 rsp1 w d)
        else .two (.tick (decodeRsp rsp0) (decodeRsp rsp1)) (.req 0b010#3 rsp0 rsp1 w d)))

/-- 30_encoding.md R92, 20_memory.md R73: two steps on a simultaneous tick and frame perform both operations, in the one order or
the other. That nothing is performed between the two, and that both use the sensor address in force at the request, is the
model's choice (log 5): the spec does not say it, and 10_state.md R40 lets a CFG.WRITE occur between any two operations. -/
def Obligations.SimultaneousTickAndFrameRunInEitherOrder : Prop :=
  ∀ (s : State) (rsp0 rsp1 : BitVec 17) (w : FrameWord) (d : Bool) (rest : List Input), w.dlc.toNat ≤ 8 →
    s.inputs = .req 0b011#3 rsp0 rsp1 w d :: rest →
    ∃ t, Host.Core.run Sys2Proof.core 2 s = .next t ∧
      performAll
        (if d then [classify s.cfg.sensorAddr (portFrame w), .tick (decodeRsp rsp0) (decodeRsp rsp1)]
         else [.tick (decodeRsp rsp0) (decodeRsp rsp1), classify s.cfg.sensorAddr (portFrame w)])
        { s with inputs := rest } = .next t

/-- 30_encoding.md R109 (7): a frame with `dlc` in 9..15, a 29-bit identifier or a remote frame is refused by name. That a tick
presented together with such a frame (strobes 0b011) is refused with it, so that no TICK is performed, is the model's choice
(log 19): R109 (7) speaks of the frame alone. -/
def Obligations.UnpresentableFramesAreRefused : Prop :=
  ∀ (s : State) (rest : List Input),
    (∀ (strobes : BitVec 3) (rsp0 rsp1 : BitVec 17) (w : FrameWord) (d : Bool), strobes.getLsbD 2 = false →
      strobes.getLsbD 1 = true → 9 ≤ w.dlc.toNat → s.inputs = .req strobes rsp0 rsp1 w d :: rest →
      step s = .refused .dlcOver8) ∧
    (s.inputs = .foreign .extendedId :: rest → step s = .refused .extendedId) ∧
    (s.inputs = .foreign .remote :: rest → step s = .refused .remoteFrame)

/-- 30_encoding.md R103 to R106, R109: the numeric command words, the converter each is addressed to, and exactly the words
that are some command's. -/
def Obligations.CommandWordLayout : Prop :=
  (∀ l : Line, (Cmd.swClr l).word.toNat = l.toNat ∧ (Cmd.swSet l).word.toNat = 0x10 + l.toNat) ∧
  (∀ ch : Channel, (Cmd.adcStart ch).word.toNat = 0x20 + ch.toNat) ∧
  (∀ c : BitVec 1, (Cmd.adcFetch c).word.toNat = 0x30 + c.toNat) ∧
  (∀ ch : Channel, (Cmd.adcStart ch).converter = some (BitVec.ofBool (ch.getLsbD 2))) ∧
  (∀ c : BitVec 1, (Cmd.adcFetch c).converter = some c) ∧
  ∀ w : BitVec 6, (decodeCmd w = none ↔ (0x28 ≤ w.toNat ∧ w.toNat ≤ 0x2F) ∨ 0x32 ≤ w.toNat)

/-- 30_encoding.md R107, R98: an event word is `kind * 128 + code` with the kind's number, or 0x400; the words 0x380 to 0x3FF
and 0x401 to 0x7FF are no event's. -/
def Obligations.EventWordLayout : Prop :=
  (∀ (k : FaultKind) (code : BitVec 7), (Event.fault k code).word.toNat = k.number.toNat * 128 + code.toNat) ∧
  Event.imbalance.word = 0x400#11 ∧
  [FaultKind.flashCrc, .fluxgateOverfreq, .fluxgateNoOsc, .failsafe, .signalUnavailable, .bridgeVoltageProt,
    .unrecognized].map FaultKind.number = [0#3, 1#3, 2#3, 3#3, 4#3, 5#3, 6#3] ∧
  ∀ w : BitVec 11, (decodeEvt w = none ↔ (0x380 ≤ w.toNat ∧ w.toNat ≤ 0x3FF) ∨ 0x401 ≤ w.toNat)

/-- 00_scope.md R7, 40_sampler.md R133, 60_exceptions.md R235: no input an agent presents starts WIN.PUSH, an output command
or an event as an operation of its own; of a simultaneous pair the second is again such an input. -/
def Obligations.AgentsStartNoInternalOperation : Prop :=
  ∀ (addr : BitVec 11) (inp : Input), inp.external = true →
    (∀ i second, decodeInput addr inp = .ok (.two i second) → second.external = true) ∧
    ∀ i, (decodeInput addr inp = .ok (.one i) ∨ ∃ second, decodeInput addr inp = .ok (.two i second)) →
      (i = .reset ∨ (∃ a b, i = .tick a b) ∨ (∃ f, i ∈ frameOps f) ∨ (∃ x, i = .rdVolt x) ∨ (∃ x, i = .rdTemp x) ∨
        i = .rdCur ∨ i = .rdChg ∨ ∃ w, i = .cfgWrite w)

/-! ## WIN.PUSH and TICK -/

/-- 40_sampler.md R133: a push writes one slot, advances the write position modulo 32, makes the mean numerator the exact sum
of the channel's 32 slots, and changes nothing of another channel and nothing else. -/
def Obligations.WinPushStoresAdvancesAndSums : Prop :=
  ∀ (s : State) (ch : Channel) (code : Sample), s.win.wf = true → ∃ t, exec (.winPush ch code) s = .next t ∧
    (∀ c k, t.winRead c k = if c = ch ∧ k = s.wposAt ch then code else s.winRead c k) ∧
    (∀ c, (t.wposAt c).toNat = if c = ch then ((s.wposAt ch).toNat + 1) % 32 else (s.wposAt c).toNat) ∧
    (t.meanAt ch).toInt = t.winSum ch ∧ (∀ c, c ≠ ch → t.meanAt c = s.meanAt c) ∧ t.win.wf = true ∧
    t = { s with win := t.win, wpos := t.wpos, meanQ5 := t.meanQ5 }

/-- 20_memory.md R62: after at least 32 pushes the window of a channel is exactly the last 32 samples, oldest overwritten first;
after fewer from an empty window it holds them in slots 0 onward and zeros above. -/
def Obligations.WindowIsARingOf32 : Prop :=
  ∀ (s : State) (ch : Channel) (codes : List Sample), s.win.wf = true →
    ∃ t, performAll (pushes ch codes) s = .next t ∧
      t.wposAt ch = s.wposAt ch + BitVec.ofNat 5 codes.length ∧
      (∀ j, j < 32 → (h : 32 ≤ codes.length) →
        t.winRead ch (s.wposAt ch + BitVec.ofNat 5 (codes.length - 32 + j)) = codes[codes.length - 32 + j]!) ∧
      (codes.length < 32 → s.wposAt ch = 0#5 → (∀ k, s.winRead ch k = 0#16) →
        ∀ k : BitVec 5, t.winRead ch k = codes.getD k.toNat 0#16)

/-- 95_test_vectors.md S1, S2 (20_memory.md R63): after at least 32 pushes the mean numerator is the sum of the last 32
samples; after fewer from an empty window it is the sum of the samples so far. -/
def Obligations.MeanIsOfTheLast32Samples : Prop :=
  ∀ (s : State) (ch : Channel) (codes : List Sample), s.win.wf = true → codes ≠ [] →
    ∃ t, performAll (pushes ch codes) s = .next t ∧
      (32 ≤ codes.length →
        (t.meanAt ch).toInt = ((codes.drop (codes.length - 32)).map BitVec.toInt).sum) ∧
      (codes.length < 32 → s.wposAt ch = 0#5 → (∀ k, s.winRead ch k = 0#16) →
        (t.meanAt ch).toInt = (codes.map BitVec.toInt).sum)

/-- 40_sampler.md R143: the next state of TICK, but for the command stream (R144): samples stored under the old indices, both
indices advanced modulo 4, exactly the four lines of the new channels asserted, at most one EV_IMBALANCE, nothing else. -/
def Obligations.TickNextState : Prop :=
  ∀ (s : State) (rsp0 rsp1 : Rsp), s.win.wf = true → ∃ t, exec (.tick rsp0 rsp1) s = .next t ∧
    (∀ ch k, t.winRead ch k =
      match sampleFor s rsp0 rsp1 ch with
      | some code => if k = s.wposAt ch then code else s.winRead ch k
      | none => s.winRead ch k) ∧
    (∀ ch, t.wposAt ch = if (sampleFor s rsp0 rsp1 ch).isSome then s.wposAt ch + 1#5 else s.wposAt ch) ∧
    (∀ ch, (sampleFor s rsp0 rsp1 ch).isSome → (t.meanAt ch).toInt = t.winSum ch) ∧
    (∀ ch, (sampleFor s rsp0 rsp1 ch).isNone → t.meanAt ch = s.meanAt ch) ∧
    t.vidx.toNat = (s.vidx.toNat + 1) % 4 ∧ t.tidx.toNat = (s.tidx.toNat + 1) % 4 ∧
    (∀ line : Line, t.swAt line = true ↔
      line.toNat / 2 = t.vidx.toNat ∨ line.toNat / 2 = 4 + t.tidx.toNat) ∧
    ((s.vidx = 3#2 ∧ t.spreadExceeds s.cfg.imbThresh.toInt ∧ t.events = s.events ++ [.imbalance]) ∨
      (¬(s.vidx = 3#2 ∧ t.spreadExceeds s.cfg.imbThresh.toInt) ∧ t.events = s.events)) ∧
    t.win.wf = true ∧
    t = { s with win := t.win, wpos := t.wpos, meanQ5 := t.meanQ5, vidx := t.vidx, tidx := t.tidx, sw := t.sw,
                 cmds := t.cmds, events := t.events }

/-- 40_sampler.md R144: every TICK appends exactly the 20 command words of the advanced index, whatever its operands. -/
def Obligations.TickAppendsTwentyCommands : Prop :=
  ∀ (s : State) (rsp0 rsp1 : Rsp), s.IndexInv → ∃ t, exec (.tick rsp0 rsp1) s = .next t ∧
    t.cmds.map Cmd.word = s.cmds.map Cmd.word ++ tickWords t.vidx.toNat ∧ (tickWords t.vidx.toNat).length = 20

/-- 70_reset_and_hazards.md R282: a tick issues exactly one fetch and then one start to each converter. -/
def Obligations.OneFetchThenOneStartPerConverter : Prop :=
  ∀ (s : State) (rsp0 rsp1 : Rsp), ∃ t new, exec (.tick rsp0 rsp1) s = .next t ∧ t.cmds = s.cmds ++ new ∧
    ∀ c : BitVec 1, ∃ ch : Channel, converterOf ch = c ∧
      new.filter (fun cmd => cmd.converter == some c) = [.adcFetch c, .adcStart ch]

/-- 40_sampler.md R139: in the command stream of a tick, when an SW_SET is emitted every line but the four of the new channels
is already de-asserted. -/
def Obligations.BreakBeforeMake : Prop :=
  ∀ (s : State) (rsp0 rsp1 : Rsp), ∃ t new, exec (.tick rsp0 rsp1) s = .next t ∧ t.cmds = s.cmds ++ new ∧
    swAfter s.sw new = t.sw ∧
    ∀ pre line post, new = pre ++ Cmd.swSet line :: post → ∀ l : Line,
      lineOfPair (voltChannel t.vidx) (thermChannel t.tidx) l = false → levelOf (swAfter s.sw pre) l = false

/-- 40_sampler.md R139, its second sentence: from a state of the switch invariant, at no point of a tick's command stream have
two channels of one group a line asserted. -/
def Obligations.NoTwoChannelsOfAGroupTogether : Prop :=
  ∀ (s : State) (rsp0 rsp1 : Rsp), s.SwitchInv → ∃ t new, exec (.tick rsp0 rsp1) s = .next t ∧ t.cmds = s.cmds ++ new ∧
    ∀ pre post, new = pre ++ post → ∀ l m : Line,
      levelOf (swAfter s.sw pre) l = true → levelOf (swAfter s.sw pre) m = true →
      l.toNat / 8 = m.toNat / 8 → l.toNat / 2 = m.toNat / 2

/-- 10_state.md R51: after RESET no line is asserted; after TICK exactly the two lines of `vidx` and the two of `4 + tidx`, with
the indices after the tick. -/
def Obligations.SwitchLevelsAfterResetAndTick : Prop :=
  ∀ (s : State) (rsp0 rsp1 : Rsp),
    (∃ t, exec .reset s = .next t ∧ ∀ line : Line, t.swAt line = false) ∧
    ∃ t, exec (.tick rsp0 rsp1) s = .next t ∧
      (∀ line : Line, t.swAt line = true ↔
        line = BitVec.ofNat 4 (2 * t.vidx.toNat) ∨ line = BitVec.ofNat 4 (2 * t.vidx.toNat + 1) ∨
        line = BitVec.ofNat 4 (2 * (4 + t.tidx.toNat)) ∨ line = BitVec.ofNat 4 (2 * (4 + t.tidx.toNat) + 1)) ∧
      ((List.range 16).filter fun l => t.swAt (BitVec.ofNat 4 l)).length = 4

/-- 40_sampler.md R135: a not-ready answer leaves every channel of its converter as it was, and the rest of the tick (indices,
lines, commands) is as with any answer. -/
def Obligations.NotReadyLeavesTheConverterGroup : Prop :=
  ∀ (s : State) (rsp0 rsp1 other : Rsp), s.win.wf = true →
    (∃ t u, exec (.tick .notReady rsp1) s = .next t ∧ exec (.tick other rsp1) s = .next u ∧
      (∀ ch : Channel, converterOf ch = 0#1 →
        t.wposAt ch = s.wposAt ch ∧ t.meanAt ch = s.meanAt ch ∧ ∀ k, t.winRead ch k = s.winRead ch k) ∧
      t.vidx = u.vidx ∧ t.tidx = u.tidx ∧ t.sw = u.sw ∧ t.cmds = u.cmds) ∧
    (∃ t u, exec (.tick rsp0 .notReady) s = .next t ∧ exec (.tick rsp0 other) s = .next u ∧
      (∀ ch : Channel, converterOf ch = 1#1 →
        t.wposAt ch = s.wposAt ch ∧ t.meanAt ch = s.meanAt ch ∧ ∀ k, t.winRead ch k = s.winRead ch k) ∧
      t.vidx = u.vidx ∧ t.tidx = u.tidx ∧ t.sw = u.sw ∧ t.cmds = u.cmds)

/-- 40_sampler.md R146: a thermistor reading changes its own channel and nothing else: with any answer of converter 1 every other
channel, the indices, the lines and both streams come out as with none. -/
def Obligations.ThermistorSampleTouchesNoVoltageChannel : Prop :=
  ∀ (s : State) (rsp0 : Rsp) (code : Sample), s.win.wf = true →
    ∃ t u, exec (.tick rsp0 (.ready code)) s = .next t ∧ exec (.tick rsp0 .notReady) s = .next u ∧
      (∀ ch : Channel, ch ≠ thermChannel s.tidx →
        t.wposAt ch = u.wposAt ch ∧ t.meanAt ch = u.meanAt ch ∧ ∀ k, t.winRead ch k = u.winRead ch k) ∧
      t.winRead (thermChannel s.tidx) (s.wposAt (thermChannel s.tidx)) = code ∧
      t.wposAt (thermChannel s.tidx) = s.wposAt (thermChannel s.tidx) + 1#5 ∧
      (t.meanAt (thermChannel s.tidx)).toInt = t.winSum (thermChannel s.tidx) ∧
      t = { u with win := t.win, wpos := t.wpos, meanQ5 := t.meanQ5 }

/-- 40_sampler.md R145 (4), (5): at a wrap a negative threshold always raises EV_IMBALANCE; with four equal voltage means
afterwards only a negative one does. -/
def Obligations.ThresholdSignAtTheWrap : Prop :=
  ∀ (s : State) (rsp0 rsp1 : Rsp), s.vidx = 3#2 → ∃ t, exec (.tick rsp0 rsp1) s = .next t ∧
    (s.cfg.imbThresh.toInt < 0 → t.events = s.events ++ [.imbalance]) ∧
    ((∀ i j : BitVec 2, t.meanAt (voltChannel i) = t.meanAt (voltChannel j)) → 0 ≤ s.cfg.imbThresh.toInt →
      t.events = s.events)

/-- 40_sampler.md R131 under the premise ENV-FRESH of R132: after a tick the last conversion started on each converter is of
the channel its index names, and a ready answer on the next tick, being that conversion's result, is stored under that
channel. -/
def Obligations.LagOneAttribution : Prop :=
  ∀ (s : State) (rsp0 rsp1 : Rsp) (result : Nat → Sample) (code0 code1 : Sample), s.win.wf = true →
    ∃ t u p0 p1, exec (.tick rsp0 rsp1) s = .next t ∧
      lastStart 0#1 t.cmds = some (p0, voltChannel t.vidx) ∧ lastStart 1#1 t.cmds = some (p1, thermChannel t.tidx) ∧
      t.cmds[p0]? = some (.adcStart (voltChannel t.vidx)) ∧ t.cmds[p1]? = some (.adcStart (thermChannel t.tidx)) ∧
      exec (.tick (.ready code0) (.ready code1)) t = .next u ∧
      (EnvFresh result t.cmds 0#1 (.ready code0) →
        u.winRead (voltChannel t.vidx) (t.wposAt (voltChannel t.vidx)) = result p0) ∧
      (EnvFresh result t.cmds 1#1 (.ready code1) →
        u.winRead (thermChannel t.tidx) (t.wposAt (thermChannel t.tidx)) = result p1)

/-! ## The reads -/

/-- 41_accessor.md R173: RD.VOLT returns the product of the exact mean and the bank's scale factor, `+0.0` outside `[0,3]`, and
changes nothing; `rd_sel = 0b00` selects it, with the index as its operand. -/
def Obligations.ReadVoltage : Prop :=
  ∀ s : State,
    (∀ b : BitVec 2, exec (.rdVolt (b.setWidth 32)) s = .next { s with
      reads := s.reads ++ [Config.accMul (((s.meanAt (BitVec.ofNat 3 b.toNat)).toInt : Rat) / 32) (s.cfg.vscaleAt b)] }) ∧
    (∀ i : Word32, i.toInt < 0 ∨ 3 < i.toInt → exec (.rdVolt i) s = .next { s with reads := s.reads ++ [0#32] }) ∧
    ∀ i : Word32, decodeInput s.cfg.sensorAddr (.rdp 0b00#2 i) = .ok (.one (.rdVolt i))

/-- 41_accessor.md R174: RD.TEMP returns the product of the thermistor bank's exact mean and its coefficient `K`, `+0.0`
outside `[0,3]`, and changes nothing; `rd_sel = 0b01` selects it, with the index as its operand. -/
def Obligations.ReadTemperature : Prop :=
  ∀ s : State,
    (∀ b : BitVec 2, exec (.rdTemp (b.setWidth 32)) s = .next { s with
      reads := s.reads ++
        [Config.accMul (((s.meanAt (BitVec.ofNat 3 (4 + b.toNat))).toInt : Rat) / 32) (s.cfg.tcoefAt b).k] }) ∧
    (∀ i : Word32, i.toInt < 0 ∨ 3 < i.toInt → exec (.rdTemp i) s = .next { s with reads := s.reads ++ [0#32] }) ∧
    ∀ i : Word32, decodeInput s.cfg.sensorAddr (.rdp 0b01#2 i) = .ok (.one (.rdTemp i))

/-- 41_accessor.md R176, R177: RD.CUR returns `last_mA`, RD.CHG returns `charge`, and neither changes anything; `rd_sel = 0b10` and
`0b11` select them, whatever the index. -/
def Obligations.ReadCurrentAndCharge : Prop :=
  ∀ s : State, exec .rdCur s = .next { s with reads := s.reads ++ [s.lastMA] } ∧
    exec .rdChg s = .next { s with reads := s.reads ++ [s.charge] } ∧
    ∀ i : Word32, decodeInput s.cfg.sensorAddr (.rdp 0b10#2 i) = .ok (.one .rdCur) ∧
      decodeInput s.cfg.sensorAddr (.rdp 0b11#2 i) = .ok (.one .rdChg)

/-- 41_accessor.md R175: for an index outside `[0,3]` both float reads return `+0.0` whatever the configuration is. -/
def Obligations.BadIndexReadsZeroForEveryConfiguration : Prop :=
  ∀ (s : State) (c : Cfg) (i : Word32), i.toInt < 0 ∨ 3 < i.toInt →
    ∀ op ∈ [Instr.rdVolt i, Instr.rdTemp i], ∃ t u, exec op s = .next t ∧ exec op (s.setCfg c) = .next u ∧
      t = { s with reads := s.reads ++ [0x00000000#32] } ∧ u.reads = t.reads ∧ u.events = s.events ∧ u.cmds = s.cmds

/-- 41_accessor.md R171: the default product with the factor 1.0 is the mean itself, exactly: every channel mean is a binary32
number. About the default `ACC_MUL` the spec proposes (log 10), which no instruction uses. -/
def Obligations.EveryMeanIsAFloatExactly : Prop :=
  ∀ (s : State) (ch : Channel), f32Value (accMulDefault (s.mean ch) 0x3F800000#32) = s.mean ch ∧
    f32Exp (accMulDefault (s.mean ch) 0x3F800000#32) ≠ 255

/-! ## FRAME -/

/-- 42_decoder.md R192, R195: FRAME.IGNORE and FRAME.SHORT change nothing; and a step on a frame whose identifier differs from
the configured address, or that matches with fewer than 5 bytes, takes the frame and changes nothing else. -/
def Obligations.IgnoredAndShortFramesChangeNothing : Prop :=
  ∀ (s : State), (∀ f : Frame, exec (.frameIgnore f) s = .next s ∧ exec (.frameShort f) s = .next s) ∧
    ∀ (rsp0 rsp1 : BitVec 17) (w : FrameWord) (d : Bool) (rest : List Input), w.dlc.toNat ≤ 8 →
      s.inputs = .req 0b010#3 rsp0 rsp1 w d :: rest → (w.id ≠ s.cfg.sensorAddr ∨ w.dlc.toNat < 5) →
      step s = .next { s with inputs := rest }

/-- 42_decoder.md R196: FRAME.FAULT emits exactly one EV_FAULT with the code `data[4][7:1]` and its kind under FAULT_MAP, and
changes nothing else; and that is what a step does on a matching frame of at least 5 bytes with `P[24]` set, the code being
`P[31:25]`. -/
def Obligations.FaultFrameEmitsOneEvent : Prop :=
  ∀ (s : State), (∀ f : Frame, exec (.frameFault f) s = .next { s with
      events := s.events ++
        [.fault (Config.faultMap ((f.byte 4).extractLsb' 1 7)) ((f.byte 4).extractLsb' 1 7)] }) ∧
    ∀ (rsp0 rsp1 : BitVec 17) (w : FrameWord) (d : Bool) (rest : List Input), 5 ≤ w.dlc.toNat → w.dlc.toNat ≤ 8 →
      s.inputs = .req 0b010#3 rsp0 rsp1 w d :: rest → w.id = s.cfg.sensorAddr → w.payload.getLsbD 24 = true →
      step s = .next { s with inputs := rest, events := s.events ++
        [.fault (Config.faultMap (w.payload.extractLsb' 25 7)) (w.payload.extractLsb' 25 7)] }

/-- 42_decoder.md R205 (with R198 to R200, R203): the next state of FRAME.DATA, all of it. -/
def Obligations.DataFrameNextState : Prop :=
  ∀ (f : Frame) (s : State), ∃ t, exec (.frameData f) s = .next t ∧
    t.lastMA.toInt = frameCurrent f ∧ t.prevMs = f.nowMs ∧ t.prevValid = true ∧
    t.charge.toInt =
      (let delta := frameDelta s f
       let c1 := if delta < 0 ∨ s.charge.toInt ≥ delta then s.charge.toInt - delta else 0
       if c1 > s.cfg.maxCharge.toInt then s.cfg.maxCharge.toInt else c1) ∧
    t = { s with lastMA := t.lastMA, prevMs := t.prevMs, prevValid := t.prevValid, charge := t.charge }

/-- 42_decoder.md R204: the closed form of the charge update when the charge was not negative, and the bound it gives. -/
def Obligations.ChargeUpdateClosedForm : Prop :=
  ∀ (f : Frame) (s : State), 0 ≤ s.charge.toInt → ∃ t, exec (.frameData f) s = .next t ∧
    t.charge.toInt = min (max (s.charge.toInt - frameDelta s f) 0) s.cfg.maxCharge.toInt ∧
    (s.cfg.legal → 0 ≤ t.charge.toInt ∧ t.charge.toInt ≤ s.cfg.maxCharge.toInt)

/-- 42_decoder.md R201: a positive current never raises the charge and a negative one never lowers it below the bound. -/
def Obligations.DischargeLowersChargeRaises : Prop :=
  ∀ (f : Frame) (s : State), s.ChargeBounded → ∃ t, exec (.frameData f) s = .next t ∧
    (0 ≤ frameCurrent f → t.charge.toInt ≤ s.charge.toInt) ∧
    (frameCurrent f ≤ 0 → s.charge.toInt ≤ t.charge.toInt)

/-- 42_decoder.md R200, 70_reset_and_hazards.md R288: while the product of current and elapsed time stays below 360 in
magnitude the charge within its bound is not moved at all. -/
def Obligations.DeadBandMovesNothing : Prop :=
  ∀ (f : Frame) (s : State), s.charge.toInt ≤ s.cfg.maxCharge.toInt → 0 ≤ s.charge.toInt →
    (frameCurrent f * elapsedMs s f).natAbs < 360 → ∃ t, exec (.frameData f) s = .next t ∧ t.charge = s.charge

/-- 42_decoder.md R199, R206 (9): the elapsed time is the true interval across at most one wrap of the 32-bit clock: a frame
`d < 2^32` milliseconds after the last one integrates `d` milliseconds. -/
def Obligations.ElapsedTimeSurvivesOneClockWrap : Prop :=
  ∀ (f : Frame) (s : State) (d : Nat), d < 2 ^ 32 → s.prevValid = true → f.nowMs = s.prevMs + BitVec.ofNat 32 d →
    ∃ t, exec (.frameData f) s = .next t ∧
      (0 ≤ s.charge.toInt → t.charge.toInt =
        min (max (s.charge.toInt - (frameCurrent f * d).tdiv 360) 0) s.cfg.maxCharge.toInt)

/-- 42_decoder.md R194: no class of FRAME writes any sampler state or emits a command, and none reads the sampler state: with
any other sampler state in its place the rest of the result is the same. -/
def Obligations.FramesLeaveTheSamplerAlone : Prop :=
  ∀ (f : Frame) (s r : State), ∀ op ∈ frameOps f, ∃ t, exec op s = .next t ∧
    t.win = s.win ∧ t.wpos = s.wpos ∧ t.meanQ5 = s.meanQ5 ∧ t.vidx = s.vidx ∧ t.tidx = s.tidx ∧ t.sw = s.sw ∧
    t.cmds = s.cmds ∧
    exec op { s with win := r.win, wpos := r.wpos, meanQ5 := r.meanQ5, vidx := r.vidx, tidx := r.tidx, sw := r.sw } =
      .next { t with win := r.win, wpos := r.wpos, meanQ5 := r.meanQ5, vidx := r.vidx, tidx := r.tidx, sw := r.sw }

/-- 42_decoder.md R208: `rx_en` equals `cfg.rx_enable`, and a step on any frame does the same whatever `cfg.rx_enable` is. -/
def Obligations.ReceiveEnableGatesNothing : Prop :=
  ∀ (s : State) (b : Bool), (s.setCfg { s.cfg with rxEnable := b }).rxEn = b ∧
    ∀ (rsp0 rsp1 : BitVec 17) (w : FrameWord) (d : Bool) (rest : List Input), w.dlc.toNat ≤ 8 →
      s.inputs = .req 0b010#3 rsp0 rsp1 w d :: rest →
      ∃ t, step s = .next t ∧
        step (s.setCfg { s.cfg with rxEnable := b }) = .next (t.setCfg { t.cfg with rxEnable := b })

/-! ## RESET and CFG.WRITE -/

/-- 70_reset_and_hazards.md R270: RESET writes every piece of block state, the charge from the configuration, and leaves the
configuration, both streams, the read record and the inputs alone. -/
def Obligations.ResetNextState : Prop :=
  ∀ s : State, ∃ t, exec .reset s = .next t ∧
    (∀ ch k, t.winRead ch k = 0#16) ∧ (∀ ch, t.wposAt ch = 0#5) ∧ (∀ ch, t.meanAt ch = 0#21) ∧
    t.vidx = 0#2 ∧ t.tidx = 0#2 ∧ (∀ line, t.swAt line = false) ∧ t.lastMA = 0#32 ∧ t.prevMs = 0#32 ∧
    t.prevValid = false ∧
    t.charge.toInt = min (max s.cfg.chargeInit.toInt 0) s.cfg.maxCharge.toInt ∧
    t.cfg = s.cfg ∧ t.cmds = s.cmds ∧ t.events = s.events ∧ t.reads = s.reads ∧ t.inputs = s.inputs

/-- 70_reset_and_hazards.md R271: the block state right after reset. The configuration, the streams, the read record and the
inputs of State.reset are the model's choices (logs 8, 2, 3, 4) and nothing is said of them, but that the charge is the one
R273 gives for that configuration. -/
def Obligations.ResetStateHoldsTheResetValues : Prop :=
  (∀ ch k, State.reset.winRead ch k = 0#16) ∧ (∀ ch, State.reset.wposAt ch = 0#5) ∧
  (∀ ch, State.reset.meanAt ch = 0#21) ∧ State.reset.vidx = 0#2 ∧ State.reset.tidx = 0#2 ∧
  (∀ line, State.reset.swAt line = false) ∧ State.reset.lastMA = 0#32 ∧ State.reset.prevMs = 0#32 ∧
  State.reset.prevValid = false ∧
  State.reset.charge.toInt = min (max State.reset.cfg.chargeInit.toInt 0) State.reset.cfg.maxCharge.toInt

/-- 10_state.md R40: CFG.WRITE replaces one field, or one array element, with the value, and changes nothing else. -/
def Obligations.CfgWriteReplacesOneField : Prop :=
  ∀ (w : CfgWrite) (s : State), ∃ c : Cfg, exec (.cfgWrite w) s = .next { s with cfg := c } ∧
    match w with
    | .vscale b v => c = { s.cfg with vscale := c.vscale } ∧
        ∀ b', c.vscaleAt b' = if b' = b then v else s.cfg.vscaleAt b'
    | .tcoef b m v => c = { s.cfg with tcoef := c.tcoef } ∧
        ∀ b' m', (c.tcoefAt b').pick m' = if b' = b ∧ m' = m then v else (s.cfg.tcoefAt b').pick m'
    | .imbThresh v => c = { s.cfg with imbThresh := v }
    | .sensorAddr v => c = { s.cfg with sensorAddr := v }
    | .maxCharge v => c = { s.cfg with maxCharge := v }
    | .chargeInit v => c = { s.cfg with chargeInit := v }
    | .rxEnable v => c = { s.cfg with rxEnable := v }

/-! ## Commands and events as operations -/

/-- 20_memory.md R67: SW_SET makes the line 1 and SW_CLR makes it 0, each emits its command and changes no other line and
nothing else, and repeating one changes no level. -/
def Obligations.SwitchCommandsSetOneLine : Prop :=
  ∀ (s : State) (line : Line),
    (∃ t u, exec (.swSet line) s = .next t ∧ t.cmds = s.cmds ++ [.swSet line] ∧
      (∀ l, t.swAt l = if l = line then true else s.swAt l) ∧ t = { s with sw := t.sw, cmds := t.cmds } ∧
      exec (.swSet line) t = .next u ∧ u.sw = t.sw) ∧
    (∃ t u, exec (.swClr line) s = .next t ∧ t.cmds = s.cmds ++ [.swClr line] ∧
      (∀ l, t.swAt l = if l = line then false else s.swAt l) ∧ t = { s with sw := t.sw, cmds := t.cmds } ∧
      exec (.swClr line) t = .next u ∧ u.sw = t.sw)

/-- 20_memory.md R68, 60_exceptions.md R232, R234, R239: a converter command or an event appends itself to its stream and
changes nothing else. -/
def Obligations.ConverterCommandsAndEventsOnlyAppend : Prop :=
  ∀ s : State,
    (∀ ch, exec (.adcStart ch) s = .next { s with cmds := s.cmds ++ [.adcStart ch] }) ∧
    (∀ c, exec (.adcFetch c) s = .next { s with cmds := s.cmds ++ [.adcFetch c] }) ∧
    (∀ k code, exec (.evFault k code) s = .next { s with events := s.events ++ [.fault k code] }) ∧
    exec .evImbalance s = .next { s with events := s.events ++ [.imbalance] }

/-! ## Whole-machine rules -/

/-- 60_exceptions.md R230: every operation completes, from every state, and what it appends to a stream comes after all that
was there; it never touches the inputs still to come. -/
def Obligations.EveryOperationCompletes : Prop :=
  ∀ (i : Instr) (s : State), ∃ t, exec i s = .next t ∧ s.cmds <+: t.cmds ∧ s.events <+: t.events ∧
    s.reads <+: t.reads ∧ t.inputs = s.inputs

/-- 60_exceptions.md R235, R238: an operation appends at most one event; an EV_FAULT comes only from FRAME.FAULT, with the
frame's code and its kind, and an EV_IMBALANCE only from a TICK at a wrap with the spread above the threshold (the events as
operations of their own aside). -/
def Obligations.EventsHaveOnlyTheirCauses : Prop :=
  ∀ (i : Instr) (s : State), ∃ t, exec i s = .next t ∧
    (t.events = s.events ∨ ∃ e, t.events = s.events ++ [e] ∧
      ((∃ f : Frame, i = .frameFault f ∧ e = .fault (Config.faultMap f.faultCode) f.faultCode) ∨
       (∃ rsp0 rsp1, i = .tick rsp0 rsp1 ∧ e = .imbalance ∧ s.vidx = 3#2 ∧ t.spreadExceeds s.cfg.imbThresh.toInt) ∨
       (∃ k code, i = .evFault k code ∧ e = .fault k code) ∨ (i = .evImbalance ∧ e = .imbalance)))

/-- 10_state.md R21 to R29, R31, 20_memory.md R74: each register changes only under its named writers; the configuration only
under CFG.WRITE. -/
def Obligations.RegistersChangeOnlyUnderTheirWriters : Prop :=
  ∀ (i : Instr) (s : State), ∃ t, exec i s = .next t ∧
    ((t.win = s.win ∧ t.wpos = s.wpos ∧ t.meanQ5 = s.meanQ5) ∨ i = .reset ∨ (∃ a b, i = .tick a b) ∨
      ∃ ch code, i = .winPush ch code) ∧
    ((t.vidx = s.vidx ∧ t.tidx = s.tidx) ∨ i = .reset ∨ ∃ a b, i = .tick a b) ∧
    (t.sw = s.sw ∨ i = .reset ∨ (∃ a b, i = .tick a b) ∨ (∃ l, i = .swClr l) ∨ ∃ l, i = .swSet l) ∧
    ((t.lastMA = s.lastMA ∧ t.prevMs = s.prevMs ∧ t.prevValid = s.prevValid ∧ t.charge = s.charge) ∨ i = .reset ∨
      ∃ f, i = .frameData f) ∧
    (t.cfg = s.cfg ∨ ∃ w, i = .cfgWrite w) ∧
    (t.cmds = s.cmds ∨ (∃ a b, i = .tick a b) ∨ (∃ l, i = .swClr l) ∨ (∃ l, i = .swSet l) ∨ (∃ ch, i = .adcStart ch) ∨
      ∃ c, i = .adcFetch c)

/-- 10_state.md R27: `prev_valid` is set to 1 by every FRAME.DATA and never cleared except by RESET. -/
def Obligations.PrevValidSetByDataClearedByReset : Prop :=
  ∀ (i : Instr) (s : State), ∃ t, exec i s = .next t ∧ ((∃ f, i = .frameData f) → t.prevValid = true) ∧
    (s.prevValid = true → t.prevValid = false → i = .reset) ∧ (i = .reset → t.prevValid = false) ∧
    (s.prevValid = false → t.prevValid = true → ∃ f, i = .frameData f)

/-- 20_memory.md R74: a TICK and a FRAME of any class in either order give the same state but for the order of their events. -/
def Obligations.TickAndFrameCommute : Prop :=
  ∀ (rsp0 rsp1 : Rsp) (f : Frame) (s : State), ∀ op ∈ frameOps f, ∃ a b tickEvents frameEvents,
    performAll [.tick rsp0 rsp1, op] s = .next a ∧ performAll [op, .tick rsp0 rsp1] s = .next b ∧
    a = { b with events := a.events } ∧ a.events = s.events ++ (tickEvents ++ frameEvents) ∧
    b.events = s.events ++ (frameEvents ++ tickEvents)

/-- 10_state.md R52: immediately after RESET and after FRAME.DATA the charge is within `[0, cfg.max_charge]`; an operation
other than CFG.WRITE keeps it there; and no operation makes a charge that was not negative negative. The premise `charge ≥ 0`
of the FRAME.DATA clause is kept by every step under legal inputs (StepKeepsChargeNonNegative). -/
def Obligations.ChargeStaysBounded : Prop :=
  ∀ (i : Instr) (s : State), s.cfg.legal → ∃ t, exec i s = .next t ∧
    (i = .reset → t.ChargeBounded) ∧
    ((∃ f, i = .frameData f) → 0 ≤ s.charge.toInt → t.ChargeBounded) ∧
    ((∀ w, i ≠ .cfgWrite w) → s.ChargeBounded → t.ChargeBounded) ∧
    (0 ≤ s.charge.toInt → 0 ≤ t.charge.toInt)

/-! ## Invariants of every step -/

/-- 10_state.md R50, R53: every step keeps the canonical memory, every mean the sum of its window, and the two indices
equal. -/
def Obligations.StepKeepsWindowAndIndexInvariants : Prop :=
  ∀ s t : State, s.WindowInv → s.IndexInv → step s = .next t → t.WindowInv ∧ t.IndexInv

/-- 10_state.md R51: every step on inputs from the agents the spec names keeps the switch invariant, and that the inputs are
such. -/
def Obligations.StepKeepsSwitchInvariant : Prop :=
  ∀ s t : State, s.ExternalInputs → s.SwitchInv → step s = .next t → t.SwitchInv ∧ t.ExternalInputs

/-- 10_state.md R52: under legal inputs every step keeps the charge non-negative and the configuration legal. -/
def Obligations.StepKeepsChargeNonNegative : Prop :=
  ∀ s t : State, s.ChargeInv → step s = .next t → t.ChargeInv

/-- The state right after reset is safe: the invariants hold in it (10_state.md R50 to R53). -/
def Obligations.ResetStateIsSafe : Prop := State.reset.Safe

/-- From a safe state a run of any number of steps ends in a safe state or is refused: it never faults. That a tick presented with
a frame that cannot be presented is refused with it is the model's choice (log 19). -/
def Obligations.SafeRunsStaySafe : Prop :=
  ∀ (n : Nat) (s : State), s.Safe →
    (∃ t : State, Host.Core.run Sys2Proof.core n s = .next t ∧ t.Safe) ∨
      ∃ r : Refusal, Host.Core.run Sys2Proof.core n s = .refused r ∧ (r = .dlcOver8 ∨ r = .extendedId ∨ r = .remoteFrame)
end

