-- ==== Sys2Proof/Laws/State.lean ====
section
/-! SUPPORT. One lemma per field per update of State, and what the accessors read after each update. -/

namespace Sys2Proof.Machine

variable (s : State)

/-! `winWrite`. -/

@[simp] theorem winWrite_win (ch : Channel) (k : BitVec 5) (v : Sample) : (s.winWrite ch k v).win = s.win.write (slotAddr ch k) v := rfl
@[simp] theorem winWrite_wpos (ch : Channel) (k : BitVec 5) (v : Sample) : (s.winWrite ch k v).wpos = s.wpos := rfl
@[simp] theorem winWrite_meanQ5 (ch : Channel) (k : BitVec 5) (v : Sample) : (s.winWrite ch k v).meanQ5 = s.meanQ5 := rfl
@[simp] theorem winWrite_vidx (ch : Channel) (k : BitVec 5) (v : Sample) : (s.winWrite ch k v).vidx = s.vidx := rfl
@[simp] theorem winWrite_tidx (ch : Channel) (k : BitVec 5) (v : Sample) : (s.winWrite ch k v).tidx = s.tidx := rfl
@[simp] theorem winWrite_sw (ch : Channel) (k : BitVec 5) (v : Sample) : (s.winWrite ch k v).sw = s.sw := rfl
@[simp] theorem winWrite_lastMA (ch : Channel) (k : BitVec 5) (v : Sample) : (s.winWrite ch k v).lastMA = s.lastMA := rfl
@[simp] theorem winWrite_prevMs (ch : Channel) (k : BitVec 5) (v : Sample) : (s.winWrite ch k v).prevMs = s.prevMs := rfl
@[simp] theorem winWrite_prevValid (ch : Channel) (k : BitVec 5) (v : Sample) : (s.winWrite ch k v).prevValid = s.prevValid := rfl
@[simp] theorem winWrite_charge (ch : Channel) (k : BitVec 5) (v : Sample) : (s.winWrite ch k v).charge = s.charge := rfl
@[simp] theorem winWrite_cfg (ch : Channel) (k : BitVec 5) (v : Sample) : (s.winWrite ch k v).cfg = s.cfg := rfl
@[simp] theorem winWrite_cmds (ch : Channel) (k : BitVec 5) (v : Sample) : (s.winWrite ch k v).cmds = s.cmds := rfl
@[simp] theorem winWrite_events (ch : Channel) (k : BitVec 5) (v : Sample) : (s.winWrite ch k v).events = s.events := rfl
@[simp] theorem winWrite_reads (ch : Channel) (k : BitVec 5) (v : Sample) : (s.winWrite ch k v).reads = s.reads := rfl
@[simp] theorem winWrite_inputs (ch : Channel) (k : BitVec 5) (v : Sample) : (s.winWrite ch k v).inputs = s.inputs := rfl

/-! `setWpos`. -/

@[simp] theorem setWpos_win (ch : Channel) (v : BitVec 5) : (s.setWpos ch v).win = s.win := rfl
@[simp] theorem setWpos_wpos (ch : Channel) (v : BitVec 5) : (s.setWpos ch v).wpos = s.wpos.set ch.toNat v ch.isLt := rfl
@[simp] theorem setWpos_meanQ5 (ch : Channel) (v : BitVec 5) : (s.setWpos ch v).meanQ5 = s.meanQ5 := rfl
@[simp] theorem setWpos_vidx (ch : Channel) (v : BitVec 5) : (s.setWpos ch v).vidx = s.vidx := rfl
@[simp] theorem setWpos_tidx (ch : Channel) (v : BitVec 5) : (s.setWpos ch v).tidx = s.tidx := rfl
@[simp] theorem setWpos_sw (ch : Channel) (v : BitVec 5) : (s.setWpos ch v).sw = s.sw := rfl
@[simp] theorem setWpos_lastMA (ch : Channel) (v : BitVec 5) : (s.setWpos ch v).lastMA = s.lastMA := rfl
@[simp] theorem setWpos_prevMs (ch : Channel) (v : BitVec 5) : (s.setWpos ch v).prevMs = s.prevMs := rfl
@[simp] theorem setWpos_prevValid (ch : Channel) (v : BitVec 5) : (s.setWpos ch v).prevValid = s.prevValid := rfl
@[simp] theorem setWpos_charge (ch : Channel) (v : BitVec 5) : (s.setWpos ch v).charge = s.charge := rfl
@[simp] theorem setWpos_cfg (ch : Channel) (v : BitVec 5) : (s.setWpos ch v).cfg = s.cfg := rfl
@[simp] theorem setWpos_cmds (ch : Channel) (v : BitVec 5) : (s.setWpos ch v).cmds = s.cmds := rfl
@[simp] theorem setWpos_events (ch : Channel) (v : BitVec 5) : (s.setWpos ch v).events = s.events := rfl
@[simp] theorem setWpos_reads (ch : Channel) (v : BitVec 5) : (s.setWpos ch v).reads = s.reads := rfl
@[simp] theorem setWpos_inputs (ch : Channel) (v : BitVec 5) : (s.setWpos ch v).inputs = s.inputs := rfl

/-! `setMean`. -/

@[simp] theorem setMean_win (ch : Channel) (v : MeanQ5) : (s.setMean ch v).win = s.win := rfl
@[simp] theorem setMean_wpos (ch : Channel) (v : MeanQ5) : (s.setMean ch v).wpos = s.wpos := rfl
@[simp] theorem setMean_meanQ5 (ch : Channel) (v : MeanQ5) : (s.setMean ch v).meanQ5 = s.meanQ5.set ch.toNat v ch.isLt := rfl
@[simp] theorem setMean_vidx (ch : Channel) (v : MeanQ5) : (s.setMean ch v).vidx = s.vidx := rfl
@[simp] theorem setMean_tidx (ch : Channel) (v : MeanQ5) : (s.setMean ch v).tidx = s.tidx := rfl
@[simp] theorem setMean_sw (ch : Channel) (v : MeanQ5) : (s.setMean ch v).sw = s.sw := rfl
@[simp] theorem setMean_lastMA (ch : Channel) (v : MeanQ5) : (s.setMean ch v).lastMA = s.lastMA := rfl
@[simp] theorem setMean_prevMs (ch : Channel) (v : MeanQ5) : (s.setMean ch v).prevMs = s.prevMs := rfl
@[simp] theorem setMean_prevValid (ch : Channel) (v : MeanQ5) : (s.setMean ch v).prevValid = s.prevValid := rfl
@[simp] theorem setMean_charge (ch : Channel) (v : MeanQ5) : (s.setMean ch v).charge = s.charge := rfl
@[simp] theorem setMean_cfg (ch : Channel) (v : MeanQ5) : (s.setMean ch v).cfg = s.cfg := rfl
@[simp] theorem setMean_cmds (ch : Channel) (v : MeanQ5) : (s.setMean ch v).cmds = s.cmds := rfl
@[simp] theorem setMean_events (ch : Channel) (v : MeanQ5) : (s.setMean ch v).events = s.events := rfl
@[simp] theorem setMean_reads (ch : Channel) (v : MeanQ5) : (s.setMean ch v).reads = s.reads := rfl
@[simp] theorem setMean_inputs (ch : Channel) (v : MeanQ5) : (s.setMean ch v).inputs = s.inputs := rfl

/-! `advance`. -/

@[simp] theorem advance_win : (s.advance).win = s.win := rfl
@[simp] theorem advance_wpos : (s.advance).wpos = s.wpos := rfl
@[simp] theorem advance_meanQ5 : (s.advance).meanQ5 = s.meanQ5 := rfl
@[simp] theorem advance_vidx : (s.advance).vidx = s.vidx + 1#2 := rfl
@[simp] theorem advance_tidx : (s.advance).tidx = s.tidx + 1#2 := rfl
@[simp] theorem advance_sw : (s.advance).sw = s.sw := rfl
@[simp] theorem advance_lastMA : (s.advance).lastMA = s.lastMA := rfl
@[simp] theorem advance_prevMs : (s.advance).prevMs = s.prevMs := rfl
@[simp] theorem advance_prevValid : (s.advance).prevValid = s.prevValid := rfl
@[simp] theorem advance_charge : (s.advance).charge = s.charge := rfl
@[simp] theorem advance_cfg : (s.advance).cfg = s.cfg := rfl
@[simp] theorem advance_cmds : (s.advance).cmds = s.cmds := rfl
@[simp] theorem advance_events : (s.advance).events = s.events := rfl
@[simp] theorem advance_reads : (s.advance).reads = s.reads := rfl
@[simp] theorem advance_inputs : (s.advance).inputs = s.inputs := rfl

/-! `setSw`. -/

@[simp] theorem setSw_win (l : Line) (v : Bool) : (s.setSw l v).win = s.win := rfl
@[simp] theorem setSw_wpos (l : Line) (v : Bool) : (s.setSw l v).wpos = s.wpos := rfl
@[simp] theorem setSw_meanQ5 (l : Line) (v : Bool) : (s.setSw l v).meanQ5 = s.meanQ5 := rfl
@[simp] theorem setSw_vidx (l : Line) (v : Bool) : (s.setSw l v).vidx = s.vidx := rfl
@[simp] theorem setSw_tidx (l : Line) (v : Bool) : (s.setSw l v).tidx = s.tidx := rfl
@[simp] theorem setSw_sw (l : Line) (v : Bool) : (s.setSw l v).sw = s.sw.set l.toNat v l.isLt := rfl
@[simp] theorem setSw_lastMA (l : Line) (v : Bool) : (s.setSw l v).lastMA = s.lastMA := rfl
@[simp] theorem setSw_prevMs (l : Line) (v : Bool) : (s.setSw l v).prevMs = s.prevMs := rfl
@[simp] theorem setSw_prevValid (l : Line) (v : Bool) : (s.setSw l v).prevValid = s.prevValid := rfl
@[simp] theorem setSw_charge (l : Line) (v : Bool) : (s.setSw l v).charge = s.charge := rfl
@[simp] theorem setSw_cfg (l : Line) (v : Bool) : (s.setSw l v).cfg = s.cfg := rfl
@[simp] theorem setSw_cmds (l : Line) (v : Bool) : (s.setSw l v).cmds = s.cmds := rfl
@[simp] theorem setSw_events (l : Line) (v : Bool) : (s.setSw l v).events = s.events := rfl
@[simp] theorem setSw_reads (l : Line) (v : Bool) : (s.setSw l v).reads = s.reads := rfl
@[simp] theorem setSw_inputs (l : Line) (v : Bool) : (s.setSw l v).inputs = s.inputs := rfl

/-! `setDecoder`. -/

@[simp] theorem setDecoder_win (a b : Word32) (p : Bool) (c : Word32) : (s.setDecoder a b p c).win = s.win := rfl
@[simp] theorem setDecoder_wpos (a b : Word32) (p : Bool) (c : Word32) : (s.setDecoder a b p c).wpos = s.wpos := rfl
@[simp] theorem setDecoder_meanQ5 (a b : Word32) (p : Bool) (c : Word32) : (s.setDecoder a b p c).meanQ5 = s.meanQ5 := rfl
@[simp] theorem setDecoder_vidx (a b : Word32) (p : Bool) (c : Word32) : (s.setDecoder a b p c).vidx = s.vidx := rfl
@[simp] theorem setDecoder_tidx (a b : Word32) (p : Bool) (c : Word32) : (s.setDecoder a b p c).tidx = s.tidx := rfl
@[simp] theorem setDecoder_sw (a b : Word32) (p : Bool) (c : Word32) : (s.setDecoder a b p c).sw = s.sw := rfl
@[simp] theorem setDecoder_lastMA (a b : Word32) (p : Bool) (c : Word32) : (s.setDecoder a b p c).lastMA = a := rfl
@[simp] theorem setDecoder_prevMs (a b : Word32) (p : Bool) (c : Word32) : (s.setDecoder a b p c).prevMs = b := rfl
@[simp] theorem setDecoder_prevValid (a b : Word32) (p : Bool) (c : Word32) : (s.setDecoder a b p c).prevValid = p := rfl
@[simp] theorem setDecoder_charge (a b : Word32) (p : Bool) (c : Word32) : (s.setDecoder a b p c).charge = c := rfl
@[simp] theorem setDecoder_cfg (a b : Word32) (p : Bool) (c : Word32) : (s.setDecoder a b p c).cfg = s.cfg := rfl
@[simp] theorem setDecoder_cmds (a b : Word32) (p : Bool) (c : Word32) : (s.setDecoder a b p c).cmds = s.cmds := rfl
@[simp] theorem setDecoder_events (a b : Word32) (p : Bool) (c : Word32) : (s.setDecoder a b p c).events = s.events := rfl
@[simp] theorem setDecoder_reads (a b : Word32) (p : Bool) (c : Word32) : (s.setDecoder a b p c).reads = s.reads := rfl
@[simp] theorem setDecoder_inputs (a b : Word32) (p : Bool) (c : Word32) : (s.setDecoder a b p c).inputs = s.inputs := rfl

/-! `emitCmd`. -/

@[simp] theorem emitCmd_win (c : Cmd) : (s.emitCmd c).win = s.win := rfl
@[simp] theorem emitCmd_wpos (c : Cmd) : (s.emitCmd c).wpos = s.wpos := rfl
@[simp] theorem emitCmd_meanQ5 (c : Cmd) : (s.emitCmd c).meanQ5 = s.meanQ5 := rfl
@[simp] theorem emitCmd_vidx (c : Cmd) : (s.emitCmd c).vidx = s.vidx := rfl
@[simp] theorem emitCmd_tidx (c : Cmd) : (s.emitCmd c).tidx = s.tidx := rfl
@[simp] theorem emitCmd_sw (c : Cmd) : (s.emitCmd c).sw = s.sw := rfl
@[simp] theorem emitCmd_lastMA (c : Cmd) : (s.emitCmd c).lastMA = s.lastMA := rfl
@[simp] theorem emitCmd_prevMs (c : Cmd) : (s.emitCmd c).prevMs = s.prevMs := rfl
@[simp] theorem emitCmd_prevValid (c : Cmd) : (s.emitCmd c).prevValid = s.prevValid := rfl
@[simp] theorem emitCmd_charge (c : Cmd) : (s.emitCmd c).charge = s.charge := rfl
@[simp] theorem emitCmd_cfg (c : Cmd) : (s.emitCmd c).cfg = s.cfg := rfl
@[simp] theorem emitCmd_cmds (c : Cmd) : (s.emitCmd c).cmds = s.cmds ++ [c] := rfl
@[simp] theorem emitCmd_events (c : Cmd) : (s.emitCmd c).events = s.events := rfl
@[simp] theorem emitCmd_reads (c : Cmd) : (s.emitCmd c).reads = s.reads := rfl
@[simp] theorem emitCmd_inputs (c : Cmd) : (s.emitCmd c).inputs = s.inputs := rfl

/-! `emitEvent`. -/

@[simp] theorem emitEvent_win (e : Event) : (s.emitEvent e).win = s.win := rfl
@[simp] theorem emitEvent_wpos (e : Event) : (s.emitEvent e).wpos = s.wpos := rfl
@[simp] theorem emitEvent_meanQ5 (e : Event) : (s.emitEvent e).meanQ5 = s.meanQ5 := rfl
@[simp] theorem emitEvent_vidx (e : Event) : (s.emitEvent e).vidx = s.vidx := rfl
@[simp] theorem emitEvent_tidx (e : Event) : (s.emitEvent e).tidx = s.tidx := rfl
@[simp] theorem emitEvent_sw (e : Event) : (s.emitEvent e).sw = s.sw := rfl
@[simp] theorem emitEvent_lastMA (e : Event) : (s.emitEvent e).lastMA = s.lastMA := rfl
@[simp] theorem emitEvent_prevMs (e : Event) : (s.emitEvent e).prevMs = s.prevMs := rfl
@[simp] theorem emitEvent_prevValid (e : Event) : (s.emitEvent e).prevValid = s.prevValid := rfl
@[simp] theorem emitEvent_charge (e : Event) : (s.emitEvent e).charge = s.charge := rfl
@[simp] theorem emitEvent_cfg (e : Event) : (s.emitEvent e).cfg = s.cfg := rfl
@[simp] theorem emitEvent_cmds (e : Event) : (s.emitEvent e).cmds = s.cmds := rfl
@[simp] theorem emitEvent_events (e : Event) : (s.emitEvent e).events = s.events ++ [e] := rfl
@[simp] theorem emitEvent_reads (e : Event) : (s.emitEvent e).reads = s.reads := rfl
@[simp] theorem emitEvent_inputs (e : Event) : (s.emitEvent e).inputs = s.inputs := rfl

/-! `emitRead`. -/

@[simp] theorem emitRead_win (v : Word32) : (s.emitRead v).win = s.win := rfl
@[simp] theorem emitRead_wpos (v : Word32) : (s.emitRead v).wpos = s.wpos := rfl
@[simp] theorem emitRead_meanQ5 (v : Word32) : (s.emitRead v).meanQ5 = s.meanQ5 := rfl
@[simp] theorem emitRead_vidx (v : Word32) : (s.emitRead v).vidx = s.vidx := rfl
@[simp] theorem emitRead_tidx (v : Word32) : (s.emitRead v).tidx = s.tidx := rfl
@[simp] theorem emitRead_sw (v : Word32) : (s.emitRead v).sw = s.sw := rfl
@[simp] theorem emitRead_lastMA (v : Word32) : (s.emitRead v).lastMA = s.lastMA := rfl
@[simp] theorem emitRead_prevMs (v : Word32) : (s.emitRead v).prevMs = s.prevMs := rfl
@[simp] theorem emitRead_prevValid (v : Word32) : (s.emitRead v).prevValid = s.prevValid := rfl
@[simp] theorem emitRead_charge (v : Word32) : (s.emitRead v).charge = s.charge := rfl
@[simp] theorem emitRead_cfg (v : Word32) : (s.emitRead v).cfg = s.cfg := rfl
@[simp] theorem emitRead_cmds (v : Word32) : (s.emitRead v).cmds = s.cmds := rfl
@[simp] theorem emitRead_events (v : Word32) : (s.emitRead v).events = s.events := rfl
@[simp] theorem emitRead_reads (v : Word32) : (s.emitRead v).reads = s.reads ++ [v] := rfl
@[simp] theorem emitRead_inputs (v : Word32) : (s.emitRead v).inputs = s.inputs := rfl

/-! `setCfg`. -/

@[simp] theorem setCfg_win (c : Cfg) : (s.setCfg c).win = s.win := rfl
@[simp] theorem setCfg_wpos (c : Cfg) : (s.setCfg c).wpos = s.wpos := rfl
@[simp] theorem setCfg_meanQ5 (c : Cfg) : (s.setCfg c).meanQ5 = s.meanQ5 := rfl
@[simp] theorem setCfg_vidx (c : Cfg) : (s.setCfg c).vidx = s.vidx := rfl
@[simp] theorem setCfg_tidx (c : Cfg) : (s.setCfg c).tidx = s.tidx := rfl
@[simp] theorem setCfg_sw (c : Cfg) : (s.setCfg c).sw = s.sw := rfl
@[simp] theorem setCfg_lastMA (c : Cfg) : (s.setCfg c).lastMA = s.lastMA := rfl
@[simp] theorem setCfg_prevMs (c : Cfg) : (s.setCfg c).prevMs = s.prevMs := rfl
@[simp] theorem setCfg_prevValid (c : Cfg) : (s.setCfg c).prevValid = s.prevValid := rfl
@[simp] theorem setCfg_charge (c : Cfg) : (s.setCfg c).charge = s.charge := rfl
@[simp] theorem setCfg_cfg (c : Cfg) : (s.setCfg c).cfg = c := rfl
@[simp] theorem setCfg_cmds (c : Cfg) : (s.setCfg c).cmds = s.cmds := rfl
@[simp] theorem setCfg_events (c : Cfg) : (s.setCfg c).events = s.events := rfl
@[simp] theorem setCfg_reads (c : Cfg) : (s.setCfg c).reads = s.reads := rfl
@[simp] theorem setCfg_inputs (c : Cfg) : (s.setCfg c).inputs = s.inputs := rfl

/-! `setInputs`. -/

@[simp] theorem setInputs_win (is : List Input) : (s.setInputs is).win = s.win := rfl
@[simp] theorem setInputs_wpos (is : List Input) : (s.setInputs is).wpos = s.wpos := rfl
@[simp] theorem setInputs_meanQ5 (is : List Input) : (s.setInputs is).meanQ5 = s.meanQ5 := rfl
@[simp] theorem setInputs_vidx (is : List Input) : (s.setInputs is).vidx = s.vidx := rfl
@[simp] theorem setInputs_tidx (is : List Input) : (s.setInputs is).tidx = s.tidx := rfl
@[simp] theorem setInputs_sw (is : List Input) : (s.setInputs is).sw = s.sw := rfl
@[simp] theorem setInputs_lastMA (is : List Input) : (s.setInputs is).lastMA = s.lastMA := rfl
@[simp] theorem setInputs_prevMs (is : List Input) : (s.setInputs is).prevMs = s.prevMs := rfl
@[simp] theorem setInputs_prevValid (is : List Input) : (s.setInputs is).prevValid = s.prevValid := rfl
@[simp] theorem setInputs_charge (is : List Input) : (s.setInputs is).charge = s.charge := rfl
@[simp] theorem setInputs_cfg (is : List Input) : (s.setInputs is).cfg = s.cfg := rfl
@[simp] theorem setInputs_cmds (is : List Input) : (s.setInputs is).cmds = s.cmds := rfl
@[simp] theorem setInputs_events (is : List Input) : (s.setInputs is).events = s.events := rfl
@[simp] theorem setInputs_reads (is : List Input) : (s.setInputs is).reads = s.reads := rfl
@[simp] theorem setInputs_inputs (is : List Input) : (s.setInputs is).inputs = is := rfl

/-! `resetBlock`. -/

@[simp] theorem resetBlock_win : (s.resetBlock).win = [] := rfl
@[simp] theorem resetBlock_wpos : (s.resetBlock).wpos = Vector.replicate 8 0#5 := rfl
@[simp] theorem resetBlock_meanQ5 : (s.resetBlock).meanQ5 = Vector.replicate 8 0#21 := rfl
@[simp] theorem resetBlock_vidx : (s.resetBlock).vidx = 0#2 := rfl
@[simp] theorem resetBlock_tidx : (s.resetBlock).tidx = 0#2 := rfl
@[simp] theorem resetBlock_sw : (s.resetBlock).sw = Vector.replicate 16 false := rfl
@[simp] theorem resetBlock_lastMA : (s.resetBlock).lastMA = 0#32 := rfl
@[simp] theorem resetBlock_prevMs : (s.resetBlock).prevMs = 0#32 := rfl
@[simp] theorem resetBlock_prevValid : (s.resetBlock).prevValid = false := rfl
@[simp] theorem resetBlock_charge : (s.resetBlock).charge = BitVec.ofInt 32 (resetCharge s.cfg.chargeInit.toInt s.cfg.maxCharge.toInt) := rfl
@[simp] theorem resetBlock_cfg : (s.resetBlock).cfg = s.cfg := rfl
@[simp] theorem resetBlock_cmds : (s.resetBlock).cmds = s.cmds := rfl
@[simp] theorem resetBlock_events : (s.resetBlock).events = s.events := rfl
@[simp] theorem resetBlock_reads : (s.resetBlock).reads = s.reads := rfl
@[simp] theorem resetBlock_inputs : (s.resetBlock).inputs = s.inputs := rfl

/-! The accessors after an update that leaves their register alone. -/

@[simp] theorem winWrite_wposAt (ch : Channel) (k : BitVec 5) (v : Sample) (c : Channel) : (s.winWrite ch k v).wposAt c = s.wposAt c := rfl
@[simp] theorem winWrite_meanAt (ch : Channel) (k : BitVec 5) (v : Sample) (c : Channel) : (s.winWrite ch k v).meanAt c = s.meanAt c := rfl
@[simp] theorem winWrite_swAt (ch : Channel) (k : BitVec 5) (v : Sample) (m : Line) : (s.winWrite ch k v).swAt m = s.swAt m := rfl
@[simp] theorem setWpos_winRead (ch : Channel) (v : BitVec 5) (c : Channel) (j : BitVec 5) : (s.setWpos ch v).winRead c j = s.winRead c j := rfl
@[simp] theorem setWpos_winSum (ch : Channel) (v : BitVec 5) (c : Channel) : (s.setWpos ch v).winSum c = s.winSum c := rfl
@[simp] theorem setWpos_meanAt (ch : Channel) (v : BitVec 5) (c : Channel) : (s.setWpos ch v).meanAt c = s.meanAt c := rfl
@[simp] theorem setWpos_swAt (ch : Channel) (v : BitVec 5) (m : Line) : (s.setWpos ch v).swAt m = s.swAt m := rfl
@[simp] theorem setMean_winRead (ch : Channel) (v : MeanQ5) (c : Channel) (j : BitVec 5) : (s.setMean ch v).winRead c j = s.winRead c j := rfl
@[simp] theorem setMean_winSum (ch : Channel) (v : MeanQ5) (c : Channel) : (s.setMean ch v).winSum c = s.winSum c := rfl
@[simp] theorem setMean_wposAt (ch : Channel) (v : MeanQ5) (c : Channel) : (s.setMean ch v).wposAt c = s.wposAt c := rfl
@[simp] theorem setMean_swAt (ch : Channel) (v : MeanQ5) (m : Line) : (s.setMean ch v).swAt m = s.swAt m := rfl
@[simp] theorem advance_winRead (c : Channel) (j : BitVec 5) : (s.advance).winRead c j = s.winRead c j := rfl
@[simp] theorem advance_winSum (c : Channel) : (s.advance).winSum c = s.winSum c := rfl
@[simp] theorem advance_wposAt (c : Channel) : (s.advance).wposAt c = s.wposAt c := rfl
@[simp] theorem advance_meanAt (c : Channel) : (s.advance).meanAt c = s.meanAt c := rfl
@[simp] theorem advance_swAt (m : Line) : (s.advance).swAt m = s.swAt m := rfl
@[simp] theorem setSw_winRead (l : Line) (v : Bool) (c : Channel) (j : BitVec 5) : (s.setSw l v).winRead c j = s.winRead c j := rfl
@[simp] theorem setSw_winSum (l : Line) (v : Bool) (c : Channel) : (s.setSw l v).winSum c = s.winSum c := rfl
@[simp] theorem setSw_wposAt (l : Line) (v : Bool) (c : Channel) : (s.setSw l v).wposAt c = s.wposAt c := rfl
@[simp] theorem setSw_meanAt (l : Line) (v : Bool) (c : Channel) : (s.setSw l v).meanAt c = s.meanAt c := rfl
@[simp] theorem setDecoder_winRead (a b : Word32) (p : Bool) (c : Word32) (x : Channel) (j : BitVec 5) : (s.setDecoder a b p c).winRead x j = s.winRead x j := rfl
@[simp] theorem setDecoder_winSum (a b : Word32) (p : Bool) (c : Word32) (x : Channel) : (s.setDecoder a b p c).winSum x = s.winSum x := rfl
@[simp] theorem setDecoder_wposAt (a b : Word32) (p : Bool) (c : Word32) (x : Channel) : (s.setDecoder a b p c).wposAt x = s.wposAt x := rfl
@[simp] theorem setDecoder_meanAt (a b : Word32) (p : Bool) (c : Word32) (x : Channel) : (s.setDecoder a b p c).meanAt x = s.meanAt x := rfl
@[simp] theorem setDecoder_swAt (a b : Word32) (p : Bool) (c : Word32) (m : Line) : (s.setDecoder a b p c).swAt m = s.swAt m := rfl
@[simp] theorem emitCmd_winRead (c : Cmd) (x : Channel) (j : BitVec 5) : (s.emitCmd c).winRead x j = s.winRead x j := rfl
@[simp] theorem emitCmd_winSum (c : Cmd) (x : Channel) : (s.emitCmd c).winSum x = s.winSum x := rfl
@[simp] theorem emitCmd_wposAt (c : Cmd) (x : Channel) : (s.emitCmd c).wposAt x = s.wposAt x := rfl
@[simp] theorem emitCmd_meanAt (c : Cmd) (x : Channel) : (s.emitCmd c).meanAt x = s.meanAt x := rfl
@[simp] theorem emitCmd_swAt (c : Cmd) (m : Line) : (s.emitCmd c).swAt m = s.swAt m := rfl
@[simp] theorem emitEvent_winRead (e : Event) (c : Channel) (j : BitVec 5) : (s.emitEvent e).winRead c j = s.winRead c j := rfl
@[simp] theorem emitEvent_winSum (e : Event) (c : Channel) : (s.emitEvent e).winSum c = s.winSum c := rfl
@[simp] theorem emitEvent_wposAt (e : Event) (c : Channel) : (s.emitEvent e).wposAt c = s.wposAt c := rfl
@[simp] theorem emitEvent_meanAt (e : Event) (c : Channel) : (s.emitEvent e).meanAt c = s.meanAt c := rfl
@[simp] theorem emitEvent_swAt (e : Event) (m : Line) : (s.emitEvent e).swAt m = s.swAt m := rfl
@[simp] theorem emitRead_winRead (v : Word32) (c : Channel) (j : BitVec 5) : (s.emitRead v).winRead c j = s.winRead c j := rfl
@[simp] theorem emitRead_winSum (v : Word32) (c : Channel) : (s.emitRead v).winSum c = s.winSum c := rfl
@[simp] theorem emitRead_wposAt (v : Word32) (c : Channel) : (s.emitRead v).wposAt c = s.wposAt c := rfl
@[simp] theorem emitRead_meanAt (v : Word32) (c : Channel) : (s.emitRead v).meanAt c = s.meanAt c := rfl
@[simp] theorem emitRead_swAt (v : Word32) (m : Line) : (s.emitRead v).swAt m = s.swAt m := rfl
@[simp] theorem setCfg_winRead (c : Cfg) (x : Channel) (j : BitVec 5) : (s.setCfg c).winRead x j = s.winRead x j := rfl
@[simp] theorem setCfg_winSum (c : Cfg) (x : Channel) : (s.setCfg c).winSum x = s.winSum x := rfl
@[simp] theorem setCfg_wposAt (c : Cfg) (x : Channel) : (s.setCfg c).wposAt x = s.wposAt x := rfl
@[simp] theorem setCfg_meanAt (c : Cfg) (x : Channel) : (s.setCfg c).meanAt x = s.meanAt x := rfl
@[simp] theorem setCfg_swAt (c : Cfg) (m : Line) : (s.setCfg c).swAt m = s.swAt m := rfl
@[simp] theorem setInputs_winRead (is : List Input) (c : Channel) (j : BitVec 5) : (s.setInputs is).winRead c j = s.winRead c j := rfl
@[simp] theorem setInputs_winSum (is : List Input) (c : Channel) : (s.setInputs is).winSum c = s.winSum c := rfl
@[simp] theorem setInputs_wposAt (is : List Input) (c : Channel) : (s.setInputs is).wposAt c = s.wposAt c := rfl
@[simp] theorem setInputs_meanAt (is : List Input) (c : Channel) : (s.setInputs is).meanAt c = s.meanAt c := rfl
@[simp] theorem setInputs_swAt (is : List Input) (m : Line) : (s.setInputs is).swAt m = s.swAt m := rfl

/-! The accessors after an update of their register. -/

theorem setWpos_wposAt (ch : Channel) (v : BitVec 5) (c : Channel) :
    (s.setWpos ch v).wposAt c = if c = ch then v else s.wposAt c := by
  simp only [State.wposAt, setWpos_wpos, Vector.getElem_set, BitVec.toNat_inj, eq_comm]

theorem setMean_meanAt (ch : Channel) (v : MeanQ5) (c : Channel) :
    (s.setMean ch v).meanAt c = if c = ch then v else s.meanAt c := by
  simp only [State.meanAt, setMean_meanQ5, Vector.getElem_set, BitVec.toNat_inj, eq_comm]

theorem setSw_swAt (l : Line) (v : Bool) (m : Line) :
    (s.setSw l v).swAt m = if m = l then v else s.swAt m := by
  simp only [State.swAt, setSw_sw, Vector.getElem_set, BitVec.toNat_inj, eq_comm]

@[simp] theorem resetBlock_wposAt (c : Channel) : s.resetBlock.wposAt c = 0#5 := by
  simp [State.wposAt]

@[simp] theorem resetBlock_meanAt (c : Channel) : s.resetBlock.meanAt c = 0#21 := by
  simp [State.meanAt]

@[simp] theorem resetBlock_swAt (m : Line) : s.resetBlock.swAt m = false := by
  simp [State.swAt]

@[simp] theorem resetBlock_winRead (c : Channel) (j : BitVec 5) : s.resetBlock.winRead c j = 0#16 := rfl

@[simp] theorem swClr_swAt (l m : Line) : (s.swClr l).swAt m = if m = l then false else s.swAt m :=
  setSw_swAt _ _ _ _

@[simp] theorem swSet_swAt (l m : Line) : (s.swSet l).swAt m = if m = l then true else s.swAt m :=
  setSw_swAt _ _ _ _

end Sys2Proof.Machine
end

