-- ==== Sys2Proof/Laws/Memory.lean ====
section
/-! SUPPORT. The laws of the window memory: read after write, and the canonical form kept by every operation. -/

namespace Sys2Proof.Machine

theorem wfFrom_weaken {m : Memory} {lo hi : Nat} (h : lo ≤ hi) (hm : Memory.wfFrom hi m = true) :
    Memory.wfFrom lo m = true := by
  cases m with
  | nil => rfl
  | cons e rest =>
    obtain ⟨b, v⟩ := e
    simp only [Memory.wfFrom, Bool.and_eq_true, decide_eq_true_eq] at hm ⊢
    exact ⟨⟨⟨by omega, hm.1.1.2⟩, hm.1.2⟩, hm.2⟩

theorem read_below {m : Memory} {lo a : Nat} (hm : Memory.wfFrom lo m = true) (h : a < lo) :
    m.read a = Memory.unlisted := by
  induction m generalizing lo with
  | nil => rfl
  | cons e rest ih =>
    obtain ⟨b, v⟩ := e
    simp only [Memory.wfFrom, Bool.and_eq_true, decide_eq_true_eq] at hm
    rw [Memory.read, if_neg (by omega)]
    exact ih hm.2 (by omega)

/-- Read after write: the written word at its address, every other address as before. -/
theorem read_write {m : Memory} {lo : Nat} (hm : Memory.wfFrom lo m = true) (a b : Nat) (v : Sample) :
    (m.write a v).read b = if b = a then v else m.read b := by
  induction m generalizing lo with
  | nil =>
    unfold Memory.write
    split <;> rename_i hv <;> split <;> simp_all [Memory.read]
  | cons e rest ih =>
    obtain ⟨c, w⟩ := e
    simp only [Memory.wfFrom, Bool.and_eq_true, decide_eq_true_eq] at hm
    have hrest : ∀ x, x ≤ c → Memory.read rest x = Memory.unlisted := fun x hx => read_below hm.2 (by omega)
    rcases Nat.lt_trichotomy a c with h | h | h
    · simp only [Memory.write, if_pos h]
      split
      · rename_i hv
        split
        · rename_i hb
          rw [hv, Memory.read, if_neg (by omega)]
          exact hrest b (by omega)
        · rfl
      · by_cases hb : b = a <;> simp [Memory.read, hb]
    · subst h
      simp only [Memory.write, Nat.lt_irrefl, if_false, if_true]
      split
      · rename_i hv
        by_cases hb : b = a
        · rw [if_pos hb, hv, hb]
          exact hrest a (by omega)
        · simp [Memory.read, hb]
      · by_cases hb : b = a <;> simp [Memory.read, hb]
    · have h1 : ¬ a < c := by omega
      have h2 : ¬ a = c := by omega
      simp only [Memory.write, if_neg h1, if_neg h2, Memory.read]
      split
      · rw [if_neg (by omega)]
      · exact ih hm.2

theorem wfFrom_write {m : Memory} {lo a : Nat} {v : Sample} (hm : Memory.wfFrom lo m = true) (hlo : lo ≤ a)
    (ha : a < Memory.size) : Memory.wfFrom lo (m.write a v) = true := by
  induction m generalizing lo with
  | nil =>
    unfold Memory.write
    split
    · rfl
    · simp_all [Memory.wfFrom]
  | cons e rest ih =>
    obtain ⟨c, w⟩ := e
    have hm' := hm
    simp only [Memory.wfFrom, Bool.and_eq_true, decide_eq_true_eq] at hm
    obtain ⟨⟨⟨h1, h2⟩, h3⟩, h4⟩ := hm
    unfold Memory.write
    split
    · split
      · exact hm'
      · rename_i hac hv
        simp only [Memory.wfFrom, Bool.and_eq_true, decide_eq_true_eq]
        exact ⟨⟨⟨hlo, ha⟩, hv⟩, ⟨⟨by omega, h2⟩, h3⟩, h4⟩
    · split
      · rename_i hac
        subst hac
        split
        · exact wfFrom_weaken (by omega) h4
        · rename_i hv
          simp only [Memory.wfFrom, Bool.and_eq_true, decide_eq_true_eq]
          exact ⟨⟨⟨hlo, ha⟩, hv⟩, h4⟩
      · simp only [Memory.wfFrom, Bool.and_eq_true, decide_eq_true_eq]
        exact ⟨⟨⟨h1, h2⟩, h3⟩, ih h4 (by omega)⟩

/-- Every address of a slot lies in the memory. -/
theorem slotAddr_lt (ch : Channel) (k : BitVec 5) : slotAddr ch k < Memory.size := by
  have h1 := ch.isLt
  have h2 := k.isLt
  simp only [slotAddr, Memory.size]
  omega

/-- A write keeps the canonical form. -/
theorem write_wf {m : Memory} (hm : m.wf = true) (ch : Channel) (k : BitVec 5) (v : Sample) :
    (m.write (slotAddr ch k) v).wf = true :=
  wfFrom_write hm (Nat.zero_le _) (slotAddr_lt ch k)

/-- Different slots have different addresses. -/
theorem slotAddr_inj {c d : Channel} {j k : BitVec 5} : slotAddr c j = slotAddr d k ↔ c = d ∧ j = k := by
  have h1 := j.isLt
  have h2 := k.isLt
  simp only [slotAddr, ← BitVec.toNat_inj]
  omega

/-- WinRead after WinWrite (20_memory.md R61). -/
theorem winWrite_winRead {s : State} (hm : s.win.wf = true) (ch : Channel) (k : BitVec 5) (v : Sample) (c : Channel)
    (j : BitVec 5) : (s.winWrite ch k v).winRead c j = if c = ch ∧ j = k then v else s.winRead c j := by
  simp only [State.winRead, winWrite_win, read_write hm, slotAddr_inj]

/-- Canonical memories that read alike are equal. -/
theorem memory_ext {m n : Memory} {lo : Nat} (hm : Memory.wfFrom lo m = true) (hn : Memory.wfFrom lo n = true)
    (h : ∀ a, m.read a = n.read a) : m = n := by
  induction m generalizing n lo with
  | nil =>
    cases n with
    | nil => rfl
    | cons e rest =>
      obtain ⟨b, v⟩ := e
      simp only [Memory.wfFrom, Bool.and_eq_true, decide_eq_true_eq] at hn
      have := h b
      simp only [Memory.read, if_true] at this
      exact absurd this.symm hn.1.2
  | cons e rest ih =>
    obtain ⟨a, v⟩ := e
    have hm' := hm
    simp only [Memory.wfFrom, Bool.and_eq_true, decide_eq_true_eq] at hm
    cases n with
    | nil =>
      have := h a
      simp only [Memory.read, if_true] at this
      exact absurd this hm.1.2
    | cons e' rest' =>
      obtain ⟨b, w⟩ := e'
      have hn' := hn
      simp only [Memory.wfFrom, Bool.and_eq_true, decide_eq_true_eq] at hn
      have hab : a = b := by
        rcases Nat.lt_trichotomy a b with hlt | heq | hgt
        · have h1 := h a
          rw [Memory.read, if_pos rfl, Memory.read, if_neg (by omega), read_below hn.2 (by omega)] at h1
          exact absurd h1 hm.1.2
        · exact heq
        · have h1 := h b
          rw [Memory.read, if_neg (by omega), Memory.read, if_pos rfl, read_below hm.2 (by omega)] at h1
          exact absurd h1.symm hn.1.2
      subst hab
      have hv : v = w := by simpa [Memory.read] using h a
      subst hv
      have : rest = rest' := ih hm.2 hn.2 fun x => by
        by_cases hx : x = a
        · rw [hx, read_below hm.2 (by omega), read_below hn.2 (by omega)]
        · simpa [Memory.read, hx] using h x
      rw [this]

end Sys2Proof.Machine
end

