-- ==== Sys2Proof/Laws/Ops.lean ====
section
/-! SUPPORT. What each shared operation does, said once: the window sum and its bounds, the push, the routing, the tick, the
charge update, the input taken. -/

namespace Sys2Proof.Machine

/-! The window sum. -/

theorem list_sum_bounds {lo hi : Int} (l : List Int) (h : ∀ x ∈ l, lo ≤ x ∧ x ≤ hi) :
    lo * l.length ≤ l.sum ∧ l.sum ≤ hi * l.length := by
  induction l with
  | nil => simp
  | cons x xs ih =>
    have h1 := h x (by simp)
    have h2 := ih fun y hy => h y (by simp [hy])
    simp only [List.sum_cons, List.length_cons, Nat.cast_add, Nat.cast_one, mul_add, mul_one]
    omega

/-- The sum of 32 samples fits 21 bits signed (00_scope.md R11). -/
theorem winSum_bounds (s : State) (ch : Channel) : -2 ^ 20 ≤ s.winSum ch ∧ s.winSum ch ≤ 2 ^ 20 - 32 := by
  have h := list_sum_bounds (lo := -2 ^ 15) (hi := 2 ^ 15 - 1)
    ((List.range Config.win).map fun k => (s.winRead ch (BitVec.ofNat 5 k)).toInt) (by
      intro x hx
      obtain ⟨k, -, rfl⟩ := List.mem_map.1 hx
      have h1 := BitVec.le_toInt (s.winRead ch (BitVec.ofNat 5 k))
      have h2 := BitVec.toInt_lt (x := s.winRead ch (BitVec.ofNat 5 k))
      omega)
  simp only [List.length_map, List.length_range, Config.win] at h
  simp only [State.winSum, Config.win]
  omega

/-- A mathematical integer of 21 bits survives narrowing. -/
theorem toInt_ofInt_of_bounds {w : Nat} {x : Int} (hlo : -2 ^ w ≤ x) (hhi : x < 2 ^ w) :
    (BitVec.ofInt (w + 1) x).toInt = x := by
  rw [BitVec.toInt_ofInt, Int.bmod_eq_of_le] <;>
  · push_cast [pow_succ] at *
    omega

theorem toInt_winSum (s : State) (ch : Channel) : (BitVec.ofInt 21 (s.winSum ch)).toInt = s.winSum ch := by
  have h := winSum_bounds s ch
  exact toInt_ofInt_of_bounds (w := 20) h.1 (by omega)

/-- The sum looks at the slots of its channel only. -/
theorem winSum_congr {s t : State} {ch : Channel} (h : ∀ k, s.winRead ch k = t.winRead ch k) :
    s.winSum ch = t.winSum ch := by
  simp [State.winSum, h]

/-! The push (40_sampler.md R133). -/

variable (s : State) (ch : Channel) (code : Sample)

/-- The push writes the window, the write position and the mean, and nothing else. -/
theorem push_eq : s.push ch code =
    { s with win := (s.push ch code).win, wpos := (s.push ch code).wpos, meanQ5 := (s.push ch code).meanQ5 } := rfl

@[simp] theorem push_win : (s.push ch code).win = s.win.write (slotAddr ch (s.wposAt ch)) code := rfl

theorem push_wf (h : s.win.wf = true) : (s.push ch code).win.wf = true := write_wf h _ _ _

theorem push_winRead (h : s.win.wf = true) (c : Channel) (j : BitVec 5) :
    (s.push ch code).winRead c j = if c = ch ∧ j = s.wposAt ch then code else s.winRead c j :=
  winWrite_winRead h _ _ _ _ _

theorem push_wposAt (c : Channel) :
    (s.push ch code).wposAt c = if c = ch then s.wposAt ch + 1#5 else s.wposAt c :=
  setWpos_wposAt _ _ _ _

theorem push_meanAt (c : Channel) :
    (s.push ch code).meanAt c = if c = ch then BitVec.ofInt 21 ((s.push ch code).winSum ch) else s.meanAt c :=
  setMean_meanAt _ _ _ _

theorem push_winSum_other (h : s.win.wf = true) {c : Channel} (hc : c ≠ ch) :
    (s.push ch code).winSum c = s.winSum c :=
  winSum_congr fun k => by rw [push_winRead s ch code h, if_neg fun e => hc e.1]

/-- After a push the mean numerator of the channel is the exact sum of its slots. -/
theorem push_mean_self : ((s.push ch code).meanAt ch).toInt = (s.push ch code).winSum ch := by
  rw [push_meanAt, if_pos rfl, toInt_winSum]

@[simp] theorem push_vidx : (s.push ch code).vidx = s.vidx := rfl
@[simp] theorem push_tidx : (s.push ch code).tidx = s.tidx := rfl
@[simp] theorem push_sw : (s.push ch code).sw = s.sw := rfl
@[simp] theorem push_swAt (l : Line) : (s.push ch code).swAt l = s.swAt l := rfl
@[simp] theorem push_lastMA : (s.push ch code).lastMA = s.lastMA := rfl
@[simp] theorem push_prevMs : (s.push ch code).prevMs = s.prevMs := rfl
@[simp] theorem push_prevValid : (s.push ch code).prevValid = s.prevValid := rfl
@[simp] theorem push_charge : (s.push ch code).charge = s.charge := rfl
@[simp] theorem push_cfg : (s.push ch code).cfg = s.cfg := rfl
@[simp] theorem push_cmds : (s.push ch code).cmds = s.cmds := rfl
@[simp] theorem push_events : (s.push ch code).events = s.events := rfl
@[simp] theorem push_reads : (s.push ch code).reads = s.reads := rfl
@[simp] theorem push_inputs : (s.push ch code).inputs = s.inputs := rfl

/-- What an answer stores, said for every accessor (40_sampler.md R134, R135): nothing when not ready, a push otherwise. -/
theorem store_eq (rsp : Rsp) : s.store ch rsp = { s with
    win := (s.store ch rsp).win, wpos := (s.store ch rsp).wpos, meanQ5 := (s.store ch rsp).meanQ5 } := by
  cases rsp <;> rfl

@[simp] theorem store_vidx (rsp : Rsp) : (s.store ch rsp).vidx = s.vidx := by cases rsp <;> rfl
@[simp] theorem store_tidx (rsp : Rsp) : (s.store ch rsp).tidx = s.tidx := by cases rsp <;> rfl
@[simp] theorem store_cmds (rsp : Rsp) : (s.store ch rsp).cmds = s.cmds := by cases rsp <;> rfl
@[simp] theorem store_events (rsp : Rsp) : (s.store ch rsp).events = s.events := by cases rsp <;> rfl

theorem store_wf (rsp : Rsp) (h : s.win.wf = true) : (s.store ch rsp).win.wf = true := by
  cases rsp
  · exact h
  · exact push_wf _ _ _ h

theorem store_winRead_other (rsp : Rsp) (h : s.win.wf = true) {c : Channel} (hc : c ≠ ch) (j : BitVec 5) :
    (s.store ch rsp).winRead c j = s.winRead c j := by
  cases rsp
  · rfl
  · exact (push_winRead s ch _ h c j).trans (if_neg fun e => hc e.1)

theorem store_wposAt_other (rsp : Rsp) {c : Channel} (hc : c ≠ ch) : (s.store ch rsp).wposAt c = s.wposAt c := by
  cases rsp
  · rfl
  · exact (push_wposAt s ch _ c).trans (if_neg hc)

theorem store_meanAt_other (rsp : Rsp) {c : Channel} (hc : c ≠ ch) : (s.store ch rsp).meanAt c = s.meanAt c := by
  cases rsp
  · rfl
  · exact (push_meanAt s ch _ c).trans (if_neg hc)

/-! The routing (40_sampler.md R138). -/

/-- The commands of the de-assert phase. -/
def clearCmds (chs : List Channel) : List Cmd :=
  chs.flatMap fun c => [.swClr (lineOf c 0#1), .swClr (lineOf c 1#1)]

/-- The commands of the assert phase. -/
def assertCmds (nv nt : Channel) : List Cmd :=
  [.swSet (lineOf nv 0#1), .swSet (lineOf nv 1#1), .swSet (lineOf nt 0#1), .swSet (lineOf nt 1#1)]

/-- A line belongs to the pair of a channel exactly when half its number is the channel (20_memory.md R66). -/
theorem line_of_pair : ∀ (c : Channel) (m : Line), (m = lineOf c 0#1 ∨ m = lineOf c 1#1) ↔ m.toNat / 2 = c.toNat := by
  decide

theorem clearPair_swAt (c : Channel) (m : Line) :
    (s.clearPair c).swAt m = if m.toNat / 2 = c.toNat then false else s.swAt m := by
  have h := line_of_pair c m
  simp only [State.clearPair, swClr_swAt]
  split_ifs <;> simp_all

theorem assertPair_swAt (c : Channel) (m : Line) :
    (s.assertPair c).swAt m = if m.toNat / 2 = c.toNat then true else s.swAt m := by
  have h := line_of_pair c m
  simp only [State.assertPair, swSet_swAt]
  split_ifs <;> simp_all

theorem clearAll_eq (chs : List Channel) : chs.foldl State.clearPair s =
    { s with sw := (chs.foldl State.clearPair s).sw, cmds := s.cmds ++ clearCmds chs } := by
  induction chs generalizing s with
  | nil => simp [clearCmds]
  | cons c rest ih =>
    rw [List.foldl_cons, ih]
    simp [clearCmds, State.clearPair, State.swClr, State.emitCmd, State.setSw]

theorem clearAll_swAt (chs : List Channel) (m : Line) : (chs.foldl State.clearPair s).swAt m =
    if ∃ c ∈ chs, m.toNat / 2 = c.toNat then false else s.swAt m := by
  induction chs generalizing s with
  | nil => simp
  | cons c rest ih =>
    rw [List.foldl_cons, ih, clearPair_swAt]
    by_cases h1 : m.toNat / 2 = c.toNat <;> simp [h1]

theorem mem_allChannels : ∀ c : Channel, c ∈ allChannels := by decide

/-- The routing writes the switch lines and the command stream, and nothing else. -/
theorem route_eq (nv nt : Channel) : s.route nv nt = { s with
    sw := (s.route nv nt).sw
    cmds := s.cmds ++ clearCmds (allChannels.filter fun c => c ≠ nv ∧ c ≠ nt) ++ assertCmds nv nt } := by
  unfold State.route
  simp only
  rw [clearAll_eq]
  simp [assertCmds, State.assertPair, State.swSet, State.emitCmd, State.setSw]

/-- After the routing exactly the four lines of the two selected channels are asserted (40_sampler.md R138). -/
theorem route_swAt (nv nt : Channel) (m : Line) : (s.route nv nt).swAt m = lineOfPair nv nt m := by
  simp only [State.route, assertPair_swAt, clearAll_swAt, List.mem_filter]
  by_cases h1 : m.toNat / 2 = nt.toNat
  · simp [lineOfPair, h1]
  · by_cases h2 : m.toNat / 2 = nv.toNat
    · simp [lineOfPair, h2]
    · have hm := m.isLt
      have : ∃ c : Channel, (c ∈ allChannels ∧ decide (c ≠ nv ∧ c ≠ nt) = true) ∧ m.toNat / 2 = c.toNat := by
        refine ⟨BitVec.ofNat 3 (m.toNat / 2), ⟨mem_allChannels _, ?_⟩, ?_⟩
        · simp only [decide_eq_true_eq, ← BitVec.toNat_inj, BitVec.toNat_ofNat, ne_eq]
          rw [Nat.mod_eq_of_lt (by omega)]
          exact ⟨h2, h1⟩
        · simp only [BitVec.toNat_ofNat]
          omega
      rw [if_neg h1, if_neg h2, if_pos this]
      simp [lineOfPair, h1, h2]

/-! The tick (40_sampler.md R143). -/

/-- The two selected channels never coincide. -/
theorem volt_ne_therm : ∀ v t : BitVec 2, voltChannel v ≠ thermChannel t := by decide

/-- The commands of a TICK whose advanced indices are `v` and `t`. -/
def tickCmds (v t : BitVec 2) : List Cmd :=
  [.adcFetch 0#1, .adcFetch 1#1]
    ++ clearCmds (allChannels.filter fun c => c ≠ voltChannel v ∧ c ≠ thermChannel t)
    ++ assertCmds (voltChannel v) (thermChannel t)
    ++ [.adcStart (voltChannel v), .adcStart (thermChannel t)]

variable (rsp0 rsp1 : Rsp)

/-- The state after step 2: both answers stored under the old indices. -/
def stored : State := (s.store (voltChannel s.vidx) rsp0).store (thermChannel s.tidx) rsp1

theorem stored_wf (h : s.win.wf = true) : (stored s rsp0 rsp1).win.wf = true := store_wf _ _ _ (store_wf _ _ _ h)

theorem imbalanced_iff (thresh : Word32) :
    s.imbalanced thresh = true ↔ s.hiMean - s.loMean > 32 * thresh.toInt := decide_eq_true_iff

theorem wrapsAt_iff (oldV : BitVec 2) : wrapsAt oldV = true ↔ oldV = 3#2 := decide_eq_true_iff

/-- The registers of the windows after step 2, whatever the streams hold. -/
theorem store_emitCmd (c : Cmd) (rsp : Rsp) : (s.emitCmd c).store ch rsp = (s.store ch rsp).emitCmd c := by
  cases rsp <;> rfl

theorem checkImbalance_eq (oldV : BitVec 2) (thresh : Word32) : s.checkImbalance oldV thresh = { s with
    events := s.events ++ if wrapsAt oldV && s.imbalanced thresh then [.imbalance] else [] } := by
  unfold State.checkImbalance
  split <;> simp [State.emitEvent]

/-- Everything a TICK does. -/
theorem tick_eq : s.tick rsp0 rsp1 = { stored s rsp0 rsp1 with
    vidx := s.vidx + 1#2
    tidx := s.tidx + 1#2
    sw := (s.tick rsp0 rsp1).sw
    cmds := s.cmds ++ tickCmds (s.vidx + 1#2) (s.tidx + 1#2)
    events := s.events ++
      if wrapsAt s.vidx && (stored s rsp0 rsp1).imbalanced s.cfg.imbThresh then [.imbalance] else [] } := by
  unfold State.tick
  simp only [checkImbalance_eq, store_emitCmd]
  rw [route_eq]
  simp only [State.emitCmd, State.advance, stored, store_vidx, store_tidx, store_cmds, store_events, State.imbalanced, State.hiMean, State.loMean,
    State.meanAt, tickCmds, List.append_assoc]
  simp

theorem checkImbalance_swAt (oldV : BitVec 2) (thresh : Word32) (m : Line) :
    (s.checkImbalance oldV thresh).swAt m = s.swAt m := by
  rw [checkImbalance_eq]
  rfl

/-- After a TICK exactly the four lines of the two selected channels are asserted. -/
theorem tick_swAt (m : Line) :
    (s.tick rsp0 rsp1).swAt m = lineOfPair (voltChannel (s.vidx + 1#2)) (thermChannel (s.tidx + 1#2)) m := by
  simp only [State.tick, checkImbalance_swAt, emitCmd_swAt, route_swAt, advance_vidx, advance_tidx, store_vidx,
    store_tidx, emitCmd_vidx, emitCmd_tidx]

/-! The charge (42_decoder.md R203, 70_reset_and_hazards.md R273). -/

/-- Whatever the delta, the new charge lies between the least 32-bit value and the bound, so it fits. -/
theorem updatedCharge_bounds (charge maxCharge : Word32) (delta : Int) :
    -2 ^ 31 ≤ updatedCharge charge.toInt maxCharge.toInt delta ∧
      updatedCharge charge.toInt maxCharge.toInt delta ≤ maxCharge.toInt := by
  have h1 := BitVec.le_toInt charge
  have h2 := BitVec.le_toInt maxCharge
  simp only [updatedCharge]
  split_ifs <;> omega

theorem toInt_updatedCharge (charge maxCharge : Word32) (delta : Int) :
    (BitVec.ofInt 32 (updatedCharge charge.toInt maxCharge.toInt delta)).toInt =
      updatedCharge charge.toInt maxCharge.toInt delta := by
  have h := updatedCharge_bounds charge maxCharge delta
  have h2 := BitVec.toInt_lt (x := maxCharge)
  exact toInt_ofInt_of_bounds (w := 31) h.1 (by omega)

theorem toInt_resetCharge (init maxCharge : Word32) :
    (BitVec.ofInt 32 (resetCharge init.toInt maxCharge.toInt)).toInt = resetCharge init.toInt maxCharge.toInt := by
  have h1 := BitVec.le_toInt maxCharge
  have h2 := BitVec.toInt_lt (x := maxCharge)
  have h3 := BitVec.toInt_lt (x := init)
  refine toInt_ofInt_of_bounds (w := 31) ?_ ?_ <;> simp only [resetCharge] <;> omega

/-- The current fits 32 bits signed (42_decoder.md R198). -/
theorem toInt_current (f : Frame) : (BitVec.ofInt 32 f.current).toInt = f.current := by
  have h := f.raw.isLt
  refine toInt_ofInt_of_bounds (w := 31) ?_ ?_ <;> simp only [Frame.current, Config.bias] <;> omega

/-! The step (log 4). -/

/-- A step takes the next input and performs what it starts. -/
theorem step_cons {inp : Input} {rest : List Input} (h : s.inputs = inp :: rest) : step s =
    match decodeInput s.cfg.sensorAddr inp with
    | .error e => .refused (refusalOf e)
    | .ok .idle => .next (s.setInputs rest)
    | .ok (.one i) => exec i (s.setInputs rest)
    | .ok (.two i second) => exec i (s.setInputs (second :: rest)) := by
  unfold step fetch
  rw [h]
  simp only
  rcases decodeInput s.cfg.sensorAddr inp with e | (_ | i | ⟨i, second⟩) <;> rfl

theorem step_nil (h : s.inputs = []) : step s = .next s := by
  unfold step fetch
  rw [h]

end Sys2Proof.Machine
end

