-- ==== Sys2Proof/Laws/PerInstr.lean ====
section
/-! SUPPORT. One lemma per instruction: the word of a well-formed instruction, as the encoder writes it, matches the mask and
match of the instruction's row of spec/opcode_table.json. -/

namespace Sys2Proof

/-- The request strobes of an input. -/
def Input.strobes : Input → BitVec 3
  | .req strobes _ _ _ _ => strobes
  | .rdp _ _ => 0#3
  | .cfg _ => 0#3
  | .foreign _ => 0#3
  | .benchPush _ _ => 0#3
  | .benchCmd _ => 0#3
  | .benchEvt _ => 0#3

/-- The read select of an input. -/
def Input.readSelect : Input → Option (BitVec 2)
  | .req _ _ _ _ _ => none
  | .rdp sel _ => some sel
  | .cfg _ => none
  | .foreign _ => none
  | .benchPush _ _ => none
  | .benchCmd _ => none
  | .benchEvt _ => none

/-- The command word of an input. -/
def Input.cmdWord : Input → Option (BitVec 6)
  | .req _ _ _ _ _ => none
  | .rdp _ _ => none
  | .cfg _ => none
  | .foreign _ => none
  | .benchPush _ _ => none
  | .benchCmd w => some w
  | .benchEvt _ => none

/-- The event word of an input. -/
def Input.evtWord : Input → Option (BitVec 11)
  | .req _ _ _ _ _ => none
  | .rdp _ _ => none
  | .cfg _ => none
  | .foreign _ => none
  | .benchPush _ _ => none
  | .benchCmd _ => none
  | .benchEvt w => some w

end Sys2Proof

namespace Sys2Proof.Laws.TablePattern

/-- A word matches a row's mask and match. -/
def Matches {n : Nat} (word : Option (BitVec n)) (mask pattern : BitVec n) : Prop :=
  word.map (· &&& mask) = some pattern

/-- The row of spec/opcode_table.json, over the word the row is a pattern over. WIN.PUSH and CFG.WRITE have no bit encoding:
their encoding carries the operands as they are. -/
def Statement : Instr → Prop
  | .reset => Matches (some (encode .reset).strobes) 0x4#3 0x4#3
  | .tick rsp0 rsp1 => Matches (some (encode (.tick rsp0 rsp1)).strobes) 0x5#3 0x1#3
  | .winPush ch code => encode (.winPush ch code) = .benchPush ch code
  | .frameIgnore f => ∀ addr, Instr.wf addr (.frameIgnore f) = true →
      (encode (.frameIgnore f)).strobes = 0b010#3 ∧ Matches (some (f.classKey addr)) 0x4#3 0x0#3
  | .frameShort f => ∀ addr, Instr.wf addr (.frameShort f) = true →
      (encode (.frameShort f)).strobes = 0b010#3 ∧ Matches (some (f.classKey addr)) 0x6#3 0x4#3
  | .frameFault f => ∀ addr, Instr.wf addr (.frameFault f) = true →
      (encode (.frameFault f)).strobes = 0b010#3 ∧ Matches (some (f.classKey addr)) 0x6#3 0x6#3 ∧
      Matches (some (payloadOf f)) 0x0000000001000000#64 0x0000000001000000#64
  | .frameData f => ∀ addr, Instr.wf addr (.frameData f) = true →
      (encode (.frameData f)).strobes = 0b010#3 ∧ Matches (some (f.classKey addr)) 0x6#3 0x6#3 ∧
      Matches (some (payloadOf f)) 0x0000000001000000#64 0x0000000000000000#64
  | .rdVolt i => Matches (encode (.rdVolt i)).readSelect 0x3#2 0x0#2
  | .rdTemp i => Matches (encode (.rdTemp i)).readSelect 0x3#2 0x1#2
  | .rdCur => Matches (encode .rdCur).readSelect 0x3#2 0x2#2
  | .rdChg => Matches (encode .rdChg).readSelect 0x3#2 0x3#2
  | .cfgWrite w => encode (.cfgWrite w) = .cfg w
  | .swClr line => Matches (encode (.swClr line)).cmdWord 0x30#6 0x00#6
  | .swSet line => Matches (encode (.swSet line)).cmdWord 0x30#6 0x10#6
  | .adcStart ch => Matches (encode (.adcStart ch)).cmdWord 0x38#6 0x20#6
  | .adcFetch c => Matches (encode (.adcFetch c)).cmdWord 0x3E#6 0x30#6
  | .evFault kind code => Matches (encode (.evFault kind code)).evtWord 0x400#11 0x000#11
  | .evImbalance => Matches (encode .evImbalance).evtWord 0x7FF#11 0x400#11

/-- Bit 24 of the payload is the status bit. -/
theorem payload_status (f : Frame) : payloadOf f &&& 0x0000000001000000#64 =
    if f.statusBit then 0x0000000001000000#64 else 0#64 := by
  have h : (payloadOf f).getLsbD 24 = f.statusBit := by
    simp only [payloadOf, BitVec.getLsbD_append, Frame.statusBit, Frame.status, Config.statusByte, Config.statusBit]
    simp
  have h1 : (0x0000000001000000#64 : BitVec 64) = BitVec.twoPow 64 24 := by decide
  rw [h1, BitVec.and_twoPow, h]

/-- The class key under each class (30_encoding.md R100). -/
theorem key_of_class (addr : BitVec 11) (f : Frame) :
    (f.classOf addr = .ignore → f.classKey addr &&& 0x4#3 = 0x0#3) ∧
    (f.classOf addr = .short → f.classKey addr &&& 0x6#3 = 0x4#3) ∧
    (f.classOf addr = .fault → f.classKey addr &&& 0x6#3 = 0x6#3) ∧
    (f.classOf addr = .data → f.classKey addr &&& 0x6#3 = 0x6#3) := by
  unfold Frame.classKey Frame.classOf
  by_cases h1 : f.id = addr
  · by_cases h2 : f.dlc < Config.minDlc
    · cases f.statusBit <;> simp [h1, h2, Nat.not_le.2 h2]
    · cases f.statusBit <;> simp [h1, h2, Nat.not_lt.1 h2]
  · have h3 : (f.id == addr) = false := by simpa using h1
    rw [h3]
    cases decide (Config.minDlc ≤ f.dlc) <;> cases f.statusBit <;> simp [h1]

theorem status_of_class {addr : BitVec 11} {f : Frame} :
    (f.classOf addr = .fault → f.statusBit = true) ∧ (f.classOf addr = .data → f.statusBit = false) := by
  unfold Frame.classOf
  split_ifs <;> simp_all

theorem reset : Statement .reset := rfl
theorem tick (rsp0 rsp1 : Rsp) : Statement (.tick rsp0 rsp1) := by
  simp [Statement, Matches, encode, Input.strobes]
theorem winPush (ch : Channel) (code : Sample) : Statement (.winPush ch code) := rfl

theorem frameIgnore (f : Frame) : Statement (.frameIgnore f) := by
  intro addr h
  simp only [Instr.wf, Bool.and_eq_true, beq_iff_eq] at h
  exact ⟨rfl, by simp [Matches, (key_of_class addr f).1 h.2]⟩

theorem frameShort (f : Frame) : Statement (.frameShort f) := by
  intro addr h
  simp only [Instr.wf, Bool.and_eq_true, beq_iff_eq] at h
  exact ⟨rfl, by simp [Matches, (key_of_class addr f).2.1 h.2]⟩

theorem frameFault (f : Frame) : Statement (.frameFault f) := by
  intro addr h
  simp only [Instr.wf, Bool.and_eq_true, beq_iff_eq] at h
  exact ⟨rfl, by simp [Matches, (key_of_class addr f).2.2.1 h.2], by simp [Matches, payload_status, status_of_class.1 h.2]⟩

theorem frameData (f : Frame) : Statement (.frameData f) := by
  intro addr h
  simp only [Instr.wf, Bool.and_eq_true, beq_iff_eq] at h
  exact ⟨rfl, by simp [Matches, (key_of_class addr f).2.2.2 h.2], by simp [Matches, payload_status, status_of_class.2 h.2]⟩

theorem rdVolt (i : Word32) : Statement (.rdVolt i) := rfl
theorem rdTemp (i : Word32) : Statement (.rdTemp i) := rfl
theorem rdCur : Statement .rdCur := rfl
theorem rdChg : Statement .rdChg := rfl
theorem cfgWrite (w : CfgWrite) : Statement (.cfgWrite w) := rfl

theorem swClr (line : Line) : Statement (.swClr line) := by
  unfold Statement Matches
  revert line
  decide

theorem swSet (line : Line) : Statement (.swSet line) := by
  unfold Statement Matches
  revert line
  decide

theorem adcStart (ch : Channel) : Statement (.adcStart ch) := by
  unfold Statement Matches
  revert ch
  decide

theorem adcFetch (c : BitVec 1) : Statement (.adcFetch c) := by
  unfold Statement Matches
  revert c
  decide

theorem evFault (kind : FaultKind) (code : BitVec 7) : Statement (.evFault kind code) := by
  cases kind <;>
  · unfold Statement Matches
    revert code
    decide

theorem evImbalance : Statement .evImbalance := rfl

end Sys2Proof.Laws.TablePattern
end

