-- ==== Sys2Proof/Tests/Slice0.lean ====
section
/-! SUPPORT. The model's own tests. Expected values are those of spec/95_test_vectors.md (vector or program named) or of the
rule named; the last part shows, for each statement with hypotheses, a concrete case that meets them. -/

namespace Sys2Proof.Machine

/-! The bench. -/

/-- The configuration of 95_test_vectors.md. -/
def benchCfg : Cfg := { Cfg.initial with
  imbThresh := 50#32, sensorAddr := 0x3C2#11, maxCharge := 10000000#32, chargeInit := 5000000#32, rxEnable := true }

/-- The state after RESET under that configuration. -/
def bench : State := { State.reset with cfg := benchCfg, charge := 5000000#32 }

/-- The state one step takes an input to. -/
def after (inp : Input) (s : State) : Option State :=
  match step { s with inputs := [inp] } with
  | .next t => some t
  | .fault _ => none
  | .refused _ => none

/-- The refusal of one step on an input. -/
def refusal (inp : Input) (s : State) : Option Refusal :=
  match step { s with inputs := [inp] } with
  | .next _ => none
  | .fault _ => none
  | .refused r => some r

/-- A `FRM` port with the identifier 0x3C2. -/
def frm (dlc : BitVec 4) (payload : BitVec 64) (now : Word32) : FrameWord :=
  { id := 0x3C2#11, dlc := dlc, payload := payload, nowMs := now }

/-- A frame request. -/
def frameReq (w : FrameWord) : Input := .req 0b010#3 0#17 0#17 w false

/-- A tick request. -/
def tickReq (rsp0 rsp1 : BitVec 17) : Input := .req 0b001#3 rsp0 rsp1 noFrame false

/-- The command words a step appends to an empty stream. -/
def wordsAfter (inp : Input) (s : State) : Option (List (BitVec 6)) := (after inp s).map fun t => t.cmds.map Cmd.word

/-- The decoder registers. -/
def decoderRegs (s : State) : Word32 × Word32 × Bool × Word32 := (s.lastMA, s.prevMs, s.prevValid, s.charge)

/-! Well-formedness: one ill-formed term for each check. -/

/-- A frame of nine bytes. -/
def nineBytes : Frame := ⟨0x3C2#11, List.replicate 9 0#8, 0#32⟩

theorem test_wf_ignore_refuses_nine_bytes : (Instr.frameIgnore nineBytes).wf 0x3C3#11 = false := by decide
theorem test_wf_ignore_refuses_matching_id : (Instr.frameIgnore ⟨0x3C2#11, [], 0#32⟩).wf 0x3C2#11 = false := by decide
theorem test_wf_short_refuses_five_bytes :
    (Instr.frameShort ⟨0x3C2#11, List.replicate 5 0#8, 0#32⟩).wf 0x3C2#11 = false := by decide
theorem test_wf_fault_refuses_clear_status :
    (Instr.frameFault ⟨0x3C2#11, List.replicate 5 0xFE#8, 0#32⟩).wf 0x3C2#11 = false := by decide
theorem test_wf_fault_refuses_nine_bytes :
    (Instr.frameFault ⟨0x3C2#11, List.replicate 9 1#8, 0#32⟩).wf 0x3C2#11 = false := by decide
theorem test_wf_data_refuses_set_status :
    (Instr.frameData ⟨0x3C2#11, List.replicate 5 1#8, 0#32⟩).wf 0x3C2#11 = false := by decide
theorem test_wf_data_refuses_nine_bytes : (Instr.frameData nineBytes).wf 0x3C2#11 = false := by decide
theorem test_wf_short_accepts_four_bytes :
    (Instr.frameShort ⟨0x3C2#11, List.replicate 4 0#8, 0#32⟩).wf 0x3C2#11 = true := by decide

/-! Decoding: every constructor from a word written out from 30_encoding.md (and 95_test_vectors.md T5). -/

theorem test_decode_reset : decodeInput 0x3C2#11 (.req 0b100#3 0#17 0#17 noFrame false) = .ok (.one .reset) := by decide
theorem test_decode_tick : decodeInput 0x3C2#11 (.req 0b001#3 (1#1 ++ 3200#16) (0#1 ++ 9#16) noFrame false) =
    .ok (.one (.tick (.ready 3200#16) .notReady)) := by decide
theorem test_decode_win_push : decodeInput 0x3C2#11 (.benchPush 2#3 320#16) = .ok (.one (.winPush 2#3 320#16)) := by decide
theorem test_decode_frame_ignore :
    decodeInput 0x3C2#11 (.req 0b010#3 0#17 0#17 ⟨0x1C2#11, 5#4, 0x800003E801000000#64, 5#32⟩ false) =
      .ok (.one (.frameIgnore ⟨0x1C2#11, [0x80#8, 0#8, 3#8, 0xE8#8, 1#8], 5#32⟩)) := by decide
theorem test_decode_frame_short : decodeInput 0x3C2#11 (frameReq (frm 4#4 0x800003E801000000#64 5#32)) =
    .ok (.one (.frameShort ⟨0x3C2#11, [0x80#8, 0#8, 3#8, 0xE8#8], 5#32⟩)) := by decide
theorem test_decode_frame_fault : decodeInput 0x3C2#11 (frameReq (frm 8#4 0xFFFFFFFF85000000#64 77#32)) =
    .ok (.one (.frameFault ⟨0x3C2#11, [0xFF#8, 0xFF#8, 0xFF#8, 0xFF#8, 0x85#8, 0#8, 0#8, 0#8], 77#32⟩)) := by decide
theorem test_decode_frame_data : decodeInput 0x3C2#11 (frameReq (frm 5#4 0x80000024FE000000#64 5#32)) =
    .ok (.one (.frameData ⟨0x3C2#11, [0x80#8, 0#8, 0#8, 0x24#8, 0xFE#8], 5#32⟩)) := by decide
theorem test_decode_rd_volt : decodeInput 0x3C2#11 (.rdp 0b00#2 4#32) = .ok (.one (.rdVolt 4#32)) := by decide
theorem test_decode_rd_temp : decodeInput 0x3C2#11 (.rdp 0b01#2 2#32) = .ok (.one (.rdTemp 2#32)) := by decide
theorem test_decode_rd_cur : decodeInput 0x3C2#11 (.rdp 0b10#2 9#32) = .ok (.one .rdCur) := by decide
theorem test_decode_rd_chg : decodeInput 0x3C2#11 (.rdp 0b11#2 9#32) = .ok (.one .rdChg) := by decide
theorem test_decode_cfg_write : decodeInput 0x3C2#11 (.cfg (.imbThresh (-1#32))) =
    .ok (.one (.cfgWrite (.imbThresh (-1#32)))) := by decide
theorem test_decode_sw_clr : decodeInput 0x3C2#11 (.benchCmd 0x0F#6) = .ok (.one (.swClr 15#4)) := by decide
theorem test_decode_sw_set : decodeInput 0x3C2#11 (.benchCmd 0x1A#6) = .ok (.one (.swSet 10#4)) := by decide
theorem test_decode_adc_start : decodeInput 0x3C2#11 (.benchCmd 0x27#6) = .ok (.one (.adcStart 7#3)) := by decide
theorem test_decode_adc_fetch : decodeInput 0x3C2#11 (.benchCmd 0x31#6) = .ok (.one (.adcFetch 1#1)) := by decide
theorem test_decode_ev_fault : decodeInput 0x3C2#11 (.benchEvt 0x37F#11) =
    .ok (.one (.evFault .unrecognized 127#7)) := by decide
theorem test_decode_ev_imbalance : decodeInput 0x3C2#11 (.benchEvt 0x400#11) = .ok (.one .evImbalance) := by decide
/-- T5.3: `P = 0xFFFFFFFF85000000` as a table word is a FAULT; T5.1: the word 0x23 is ADC_START 3. -/
theorem test_table_words : decodeTableWord 8 0x23 = some (.adcStart 3#3) ∧ decodeTableWord 16 0x1C2 =
    some (.evFault .failsafe 66#7) ∧ decodeTableWord 8 4 = some .reset ∧ decodeTableWord 64 0xFFFFFFFF85000000 =
    some (.frameFault ⟨0#11, [0xFF#8, 0xFF#8, 0xFF#8, 0xFF#8, 0x85#8, 0#8, 0#8, 0#8], 0#32⟩) := by decide
/-- R109: never-emitted words are refused by name; so are frames that cannot be presented. -/
theorem test_refusals : refusal (.benchCmd 0x28#6) bench = some .neverEmittedCmd ∧
    refusal (.benchEvt 0x380#11) bench = some .neverEmittedEvt ∧
    refusal (frameReq (frm 9#4 0#64 0#32)) bench = some .dlcOver8 ∧
    refusal (.foreign .extendedId) bench = some .extendedId ∧
    refusal (.foreign .remote) bench = some .remoteFrame := by decide

/-! One step. -/

/-- T1.1, its second push. -/
theorem test_win_push : (after (.benchPush 2#3 (-64#16)) { bench with
      win := [(64, 320#16)], wpos := bench.wpos.set 2 1#5, meanQ5 := bench.meanQ5.set 2 320#21 }).map
    (fun t => (t.win, t.wposAt 2#3, t.meanAt 2#3)) = some ([(64, 320#16), (65, -64#16)], 2#5, 256#21) := by decide
/-- R133: the write position wraps from 31 to 0, the overwritten slot leaves the sum. -/
theorem test_win_push_wraps : (after (.benchPush 7#3 5#16) { bench with
      win := [(255, 9#16)], wpos := bench.wpos.set 7 31#5, meanQ5 := bench.meanQ5.set 7 9#21 }).map
    (fun t => (t.win, t.wposAt 7#3, t.meanAt 7#3)) = some ([(255, 5#16)], 0#5, 5#21) := by decide
/-- T1.5: `TICK v=NR t=700` from reset. -/
theorem test_tick_stores : (after (tickReq 0#17 (1#1 ++ 700#16)) bench).map
    (fun t => (t.win, t.wposAt 4#3, t.meanAt 4#3, t.meanAt 0#3, t.vidx, t.tidx)) =
      some ([(128, 700#16)], 1#5, 700#21, 0#21, 1#2, 1#2) := by decide
/-- T1.3: the command words of a tick that starts with `vidx = 0`, and the lines it leaves asserted. -/
theorem test_tick_commands : wordsAfter (tickReq 0#17 0#17) bench = some [0x30#6, 0x31#6, 0x00#6, 0x01#6, 0x04#6, 0x05#6,
    0x06#6, 0x07#6, 0x08#6, 0x09#6, 0x0C#6, 0x0D#6, 0x0E#6, 0x0F#6, 0x12#6, 0x13#6, 0x1A#6, 0x1B#6, 0x21#6, 0x25#6] ∧
    (after (tickReq 0#17 0#17) bench).map (fun t => (List.range 16).filter fun l => t.swAt (BitVec.ofNat 4 l)) =
      some [2, 3, 10, 11] := by decide
/-- The state of T1.7 before its fourth tick, with a threshold. -/
def beforeWrap (thresh : Word32) : State := { bench with
  win := [(32, 3200#16), (64, 3264#16)], wpos := (bench.wpos.set 1 1#5).set 2 1#5,
  meanQ5 := (bench.meanQ5.set 1 3200#21).set 2 3264#21, vidx := 3#2, tidx := 3#2, cfg := { benchCfg with imbThresh := thresh } }
/-- T1.7: the threshold is strict, and the fourth tick's own sample counts. -/
theorem test_imbalance_is_strict :
    (after (tickReq (1#1 ++ 3296#16) 0#17) (beforeWrap 102#32)).map (fun t => t.events.map Event.word) = some [0x400#11] ∧
    (after (tickReq (1#1 ++ 3296#16) 0#17) (beforeWrap 103#32)).map (fun t => t.events.map Event.word) = some [] := by
  decide
/-- T3.1: a mismatched frame with the status bit set changes nothing. -/
theorem test_frame_ignore : after (.req 0b010#3 0#17 0#17 ⟨0x3C3#11, 8#4, 0x800003E801000000#64, 5#32⟩ false) bench =
    some bench := by decide
/-- T3.2: four bytes are too short. -/
theorem test_frame_short : after (frameReq (frm 4#4 0x800003E801000000#64 5#32)) bench = some bench := by decide
/-- T3.3: one event with code 66, the decoder registers unchanged. -/
theorem test_frame_fault : after (frameReq (frm 8#4 0xFFFFFFFF85000000#64 77#32)) bench =
    some { bench with events := [.fault (Config.faultMap 66#7) 66#7] } := by rfl
/-- T3.5: truncation toward zero. -/
theorem test_frame_data_truncates : (after (frameReq (frm 8#4 0x7FFFFD3100000000#64 20021#32)) { bench with
      charge := 1360#32, prevValid := true, prevMs := 20020#32, cfg := { benchCfg with maxCharge := 2000#32 } }).map
    decoderRegs = some (-719#32, 20021#32, true, 1361#32) := by decide
/-- T3.9: the extreme operands; the product is exact and the charge is clamped to the bound. -/
theorem test_frame_data_extreme : (after (frameReq (frm 8#4 0x0000000000000000#64 0#32)) { bench with
      prevValid := true, prevMs := 1#32 }).map decoderRegs = some (0x80000000#32, 0#32, true, 10000000#32) := by decide
/-- The state T2.1 to T2.4 read. -/
def readState : State := { bench with
  meanQ5 := (((bench.meanQ5.set 0 101#21).set 1 3760#21).set 6 6400#21).set 2 (-1048576#21),
  cfg := { benchCfg with
    vscale := ((benchCfg.vscale.set 0 0x3DCCCCCD#32).set 1 0x3F000000#32).set 2 0x3A83126F#32
    tcoef := benchCfg.tcoef.set 2 { a := 0x7FC00000#32, b := 1#32, c := 2#32, k := 0x3E000000#32 } } }
/-- T2.3, T2.4 under the default ACC_MUL. -/
theorem test_rd_volt : readState.voltageWith accMulDefault 0#32 = 0x3EA1999A#32 ∧
    readState.voltageWith accMulDefault 1#32 = 0x426B0000#32 ∧
    readState.voltageWith accMulDefault 2#32 = 0xC203126F#32 := by decide +kernel
/-- T2.6: an index outside `[0,3]`. -/
theorem test_rd_volt_bad_index : (after (.rdp 0b00#2 4#32) readState).map (fun t => t.reads) = some [0#32] ∧
    (after (.rdp 0b00#2 (-1#32)) readState).map (fun t => t.reads) = some [0#32] := by decide
/-- T2.2 under the default ACC_MUL; T2.6. -/
theorem test_rd_temp : readState.temperatureWith accMulDefault 2#32 = 0x41C80000#32 := by decide +kernel
theorem test_rd_temp_bad_index : (after (.rdp 0b01#2 0x80000000#32) readState).map (fun t => t.reads) = some [0#32] := by
  decide
/-- T2.5: a cold window under the default ACC_MUL, with the factors 2.5 and -2.5. -/
theorem test_default_product_of_zero : accMulDefault 0 0x40200000#32 = 0x00000000#32 ∧
    accMulDefault 0 0xC0200000#32 = 0x80000000#32 := by decide +kernel
/-- T2.7. -/
theorem test_rd_cur : after (.rdp 0b10#2 7#32) { bench with lastMA := -500#32 } =
    some { bench with lastMA := -500#32, reads := [-500#32] } := by decide
/-- T2.8. -/
theorem test_rd_chg : after (.rdp 0b11#2 7#32) bench = some { bench with reads := [5000000#32] } := by decide
/-- T4.1, T4.2: RESET from a used state. -/
theorem test_reset : after (.req 0b100#3 0#17 0#17 noFrame false) { beforeWrap 50#32 with
      lastMA := 1#32, prevMs := 2#32, prevValid := true, charge := 3#32 } = some bench := by decide
/-- T4.1, its second and third rows. -/
theorem test_reset_clamps_charge :
    (after (.req 0b100#3 0#17 0#17 noFrame false) { bench with cfg := { benchCfg with
      chargeInit := -5#32, maxCharge := 100#32 } }).map (fun t => t.charge) = some 0#32 ∧
    (after (.req 0b100#3 0#17 0#17 noFrame false) { bench with cfg := { benchCfg with
      chargeInit := 500#32, maxCharge := 100#32 } }).map (fun t => t.charge) = some 100#32 := by decide
/-- T4.3: `req = 0b111` is RESET alone. -/
theorem test_reset_wins : after (.req 0b111#3 0#17 0#17 (frm 8#4 0xFFFFFFFF85000000#64 0#32) true) bench = some bench := by
  decide
/-- T4.4: `CFG charge_init=7` changes no state. -/
theorem test_cfg_write : after (.cfg (.chargeInit 7#32)) bench =
    some { bench with cfg := { benchCfg with chargeInit := 7#32 } } := by decide
/-- R40: one member of one element. -/
theorem test_cfg_write_member : (after (.cfg (.tcoef 3#2 .b 5#32)) bench).map
    (fun t => (t.cfg.tcoefAt 3#2, t.cfg.tcoefAt 2#2)) = some (⟨0#32, 5#32, 0#32, 0#32⟩, ⟨0#32, 0#32, 0#32, 0#32⟩) := by decide
/-- R67, T5.1. -/
theorem test_sw_set : (after (.benchCmd 0x1F#6) bench).map (fun t => (t.swAt 15#4, t.swAt 14#4, t.cmds.map Cmd.word)) =
    some (true, false, [0x1F#6]) := by decide
theorem test_sw_clr : (after (.benchCmd 0x0F#6) { bench with sw := Vector.replicate 16 true }).map
    (fun t => (t.swAt 15#4, t.swAt 14#4, t.cmds.map Cmd.word)) = some (false, true, [0x0F#6]) := by decide
theorem test_adc_start : after (.benchCmd 0x24#6) bench = some { bench with cmds := [.adcStart 4#3] } := by decide
theorem test_adc_fetch : after (.benchCmd 0x31#6) bench = some { bench with cmds := [.adcFetch 1#1] } := by decide
/-- T5.2. -/
theorem test_ev_fault : after (.benchEvt 0x1C2#11) bench = some { bench with events := [.fault .failsafe 66#7] } := by decide
theorem test_ev_imbalance : after (.benchEvt 0x400#11) bench = some { bench with events := [.imbalance] } := by decide

/-! Every row of the table that has a word of its own runs as the first step after reset. -/

theorem test_fetch_word_adc_start : step (State.reset.withFetchWord 8 0x20) =
    .next { State.reset with cmds := [.adcStart 0#3] } := by rfl
theorem test_fetch_word_event : step (State.reset.withFetchWord 16 0x400) =
    .next { State.reset with events := [.imbalance] } := by rfl

/-! Witnesses: for each statement with hypotheses, a case that meets all of them together. -/

/-- A tick and a fault frame at once (program P4). -/
def bothAtOnce (d : Bool) : Input := .req 0b011#3 (1#1 ++ 40#16) 0#17 (frm 8#4 0x800003E803000000#64 50#32) d

theorem witness_StepPerformsTheDecodedOperation :
    ({ bench with inputs := [.rdp 0b10#2 0#32] } : State).inputs = [.rdp 0b10#2 0#32] ∧
    decodeInput 0x3C2#11 (.rdp 0b10#2 0#32) = .ok (.one .rdCur) ∧
    decodeInput 0x3C2#11 (bothAtOnce false) =
      .ok (.two (.tick (.ready 40#16) .notReady) (.req 0b010#3 (1#1 ++ 40#16) 0#17 (frm 8#4 0x800003E803000000#64 50#32) false)) ∧
    decodeInput 0x3C2#11 (.req 0b000#3 0#17 0#17 noFrame false) = .ok .idle ∧
    decodeInput 0x3C2#11 (.foreign .remote) = .error .remoteFrame ∧ bench.inputs = [] := by decide
theorem witness_DecodeOfEncodeIsTheInstruction :
    (Instr.frameData ⟨0x3C2#11, [0x80#8, 0#8, 3#8, 0xE8#8, 0#8], 5#32⟩).wf 0x3C2#11 = true ∧
    (Instr.frameShort ⟨0x7FF#11, [], 5#32⟩).wf 0x7FF#11 = true ∧ (Instr.adcStart 7#3).wf 0#11 = true := by decide
theorem witness_DecodedInstructionsAreWellFormed :
    decodeInput 0x3C2#11 (frameReq (frm 4#4 0#64 0#32)) = .ok (.one (.frameShort ⟨0x3C2#11, [0#8, 0#8, 0#8, 0#8], 0#32⟩)) ∧
    decodeInput 0x3C2#11 (bothAtOnce true) =
      .ok (.two (.frameFault ⟨0x3C2#11, [0x80#8, 0#8, 3#8, 0xE8#8, 3#8, 0#8, 0#8, 0#8], 50#32⟩)
        (.req 0b001#3 (1#1 ++ 40#16) 0#17 (frm 8#4 0x800003E803000000#64 50#32) true)) := by decide
theorem witness_FrameResolvesByOrderedTests :
    (⟨0x3C3#11, 0#4, 0#64, 0#32⟩ : FrameWord).id ≠ 0x3C2#11 ∧
    ((frm 4#4 0x0000000001000000#64 0#32).id = 0x3C2#11 ∧ (frm 4#4 0x0000000001000000#64 0#32).dlc.toNat < 5) ∧
    (5 ≤ (frm 5#4 0x0000000001000000#64 0#32).dlc.toNat ∧ (frm 5#4 0x0000000001000000#64 0#32).dlc.toNat ≤ 8 ∧
      (frm 5#4 0x0000000001000000#64 0#32).payload.getLsbD 24 = true) ∧
    (5 ≤ (frm 8#4 0xFFFFFFFFFEFFFFFF#64 0#32).dlc.toNat ∧ (frm 8#4 0xFFFFFFFFFEFFFFFF#64 0#32).dlc.toNat ≤ 8 ∧
      (frm 8#4 0xFFFFFFFFFEFFFFFF#64 0#32).payload.getLsbD 24 = false) := by decide
theorem witness_FrameFieldsArePayloadSlices : 5 ≤ (frm 5#4 0#64 0#32).dlc.toNat ∧ (frm 8#4 0#64 0#32).dlc.toNat ≤ 8 := by decide
/-- T3.15. -/
theorem witness_BytesAfterTheStatusByteAreIgnored :
    5 ≤ (frm 5#4 0x800003E800000000#64 9#32).dlc.toNat ∧ (frm 8#4 0x800003E800AABBCC#64 9#32).dlc.toNat ≤ 8 ∧
    (frm 5#4 0x800003E800000000#64 9#32).payload.extractLsb' 24 40 =
      (frm 8#4 0x800003E800AABBCC#64 9#32).payload.extractLsb' 24 40 ∧
    frm 5#4 0x800003E800000000#64 9#32 ≠ frm 8#4 0x800003E800AABBCC#64 9#32 := by decide
theorem witness_RequestStrobesStartTheirOperations : (0b111#3).getLsbD 2 = true ∧ (0b100#3).getLsbD 2 = true ∧
    (frm 8#4 0#64 0#32).dlc.toNat ≤ 8 ∧ (frm 0#4 0#64 0#32).dlc.toNat ≤ 8 := by decide
theorem witness_SimultaneousTickAndFrameRunInEitherOrder : (frm 8#4 0x800003E803000000#64 50#32).dlc.toNat ≤ 8 ∧
    ∀ d : Bool, ({ bench with inputs := [bothAtOnce d] } : State).inputs =
      .req 0b011#3 (1#1 ++ 40#16) 0#17 (frm 8#4 0x800003E803000000#64 50#32) d :: [] := by decide
theorem witness_UnpresentableFramesAreRefused : (0b010#3).getLsbD 2 = false ∧ (0b011#3).getLsbD 2 = false ∧
    (0b010#3).getLsbD 1 = true ∧ (0b011#3).getLsbD 1 = true ∧
    9 ≤ (frm 9#4 0#64 0#32).dlc.toNat ∧ 9 ≤ (frm 15#4 0#64 0#32).dlc.toNat := by decide
theorem witness_AgentsStartNoInternalOperation : (bothAtOnce false).external = true ∧
    decodeInput 0x3C2#11 (bothAtOnce false) =
      .ok (.two (.tick (.ready 40#16) .notReady) (.req 0b010#3 (1#1 ++ 40#16) 0#17 (frm 8#4 0x800003E803000000#64 50#32) false)) ∧
    (Input.rdp 0b10#2 0#32).external = true ∧ decodeInput 0x3C2#11 (.rdp 0b10#2 0#32) = .ok (.one .rdCur) := by decide
/-- The canonical form that the statements about WIN.PUSH and TICK ask for holds at reset and in a used window. -/
theorem witness_WinPushStoresAdvancesAndSums : bench.win.wf = true ∧ (beforeWrap 102#32).win.wf = true := by decide
theorem witness_WindowIsARingOf32 : bench.win.wf = true ∧ bench.wposAt 7#3 = 0#5 ∧
    (∀ k, bench.winRead 7#3 k = 0#16) ∧ (List.replicate 31 5#16).length < 32 ∧ 32 ≤ (List.replicate 32 5#16).length := by decide
theorem witness_MeanIsOfTheLast32Samples : bench.win.wf = true ∧ bench.wposAt 0#3 = 0#5 ∧
    (∀ k, bench.winRead 0#3 k = 0#16) ∧ ([101#16, 102#16, 103#16] : List Sample) ≠ [] ∧
    32 ≤ (List.replicate 33 101#16).length := by decide
theorem witness_TickNextState : (beforeWrap 102#32).win.wf = true ∧
    sampleFor (beforeWrap 102#32) (.ready 3296#16) .notReady 3#3 = some 3296#16 ∧
    sampleFor (beforeWrap 102#32) (.ready 3296#16) .notReady 7#3 = none := by decide
theorem witness_TickAppendsTwentyCommands : (beforeWrap 102#32).IndexInv := rfl
/-- The first SW_SET of a tick from reset, and a line that is none of the new channels'. -/
theorem witness_BreakBeforeMake : (bench.tick .notReady .notReady).cmds =
      (bench.tick .notReady .notReady).cmds.take 14 ++ Cmd.swSet 2#4 :: (bench.tick .notReady .notReady).cmds.drop 15 ∧
    lineOfPair (voltChannel 1#2) (thermChannel 1#2) 0#4 = false := by decide
/-- After the two SW_SET of channel 1, lines 2 and 3 are asserted, both of group 0. -/
theorem witness_NoTwoChannelsOfAGroupTogether : bench.SwitchInv ∧
    (bench.tick .notReady .notReady).cmds =
      (bench.tick .notReady .notReady).cmds.take 16 ++ (bench.tick .notReady .notReady).cmds.drop 16 ∧
    levelOf (swAfter bench.sw ((bench.tick .notReady .notReady).cmds.take 16)) 2#4 = true ∧
    levelOf (swAfter bench.sw ((bench.tick .notReady .notReady).cmds.take 16)) 3#4 = true :=
  ⟨.inl ⟨rfl, rfl, by decide⟩, by decide, by decide, by decide⟩
theorem witness_NotReadyLeavesTheConverterGroup : (beforeWrap 102#32).win.wf = true ∧ converterOf 3#3 = 0#1 ∧
    converterOf 4#3 = 1#1 := by decide
theorem witness_ThermistorSampleTouchesNoVoltageChannel : (beforeWrap 102#32).win.wf = true ∧
    3#3 ≠ thermChannel (beforeWrap 102#32).tidx := by decide
/-- T1.8: four equal means after the fourth tick, thresholds 0 and -1. -/
theorem witness_ThresholdSignAtTheWrap : ({ bench with vidx := 3#2 } : State).vidx = 3#2 ∧
    (∀ i j : BitVec 2, (State.tick { bench with vidx := 3#2 } .notReady .notReady).meanAt (voltChannel i) =
      (State.tick { bench with vidx := 3#2 } .notReady .notReady).meanAt (voltChannel j)) ∧
    0 ≤ (0#32 : Word32).toInt ∧ (-1#32 : Word32).toInt < 0 := by decide
/-- The conversion of channel 1 is the nineteenth command after reset; its result is what a ready answer carries. -/
theorem witness_LagOneAttribution : bench.win.wf = true ∧
    EnvFresh (fun pos => BitVec.ofNat 16 (3200 + pos)) (bench.tick .notReady .notReady).cmds 0#1 (.ready 3218#16) ∧
    EnvFresh (fun pos => BitVec.ofNat 16 (3200 + pos)) (bench.tick .notReady .notReady).cmds 1#1 (.ready 3219#16) := by
  refine ⟨by decide, fun code h => ⟨18, 1#3, by decide, ?_⟩, fun code h => ⟨19, 5#3, by decide, ?_⟩⟩ <;>
  · cases h
    decide
theorem witness_ReadIndexOutsideTheRange : (-1#32 : Word32).toInt < 0 ∧ 3 < (4#32 : Word32).toInt ∧
    (0x80000000#32 : Word32).toInt < 0 ∧ 3 < (0x7FFFFFFF#32 : Word32).toInt := by decide
theorem witness_BadIndexReadsZeroForEveryConfiguration : 3 < (4#32 : Word32).toInt ∧
    Instr.rdTemp 4#32 ∈ [Instr.rdVolt 4#32, Instr.rdTemp 4#32] := by decide
theorem bench_legal : bench.cfg.legal := by
  unfold Cfg.legal
  decide
theorem witness_ChargeUpdateClosedForm : 0 ≤ bench.charge.toInt ∧ bench.cfg.legal := ⟨by decide, bench_legal⟩
/-- T3.4: a positive and a negative current. -/
theorem witness_DischargeLowersChargeRaises : bench.ChargeBounded ∧
    0 ≤ frameCurrent ⟨0x3C2#11, [0x80#8, 0#8, 3#8, 0xE8#8, 0#8], 0#32⟩ ∧
    frameCurrent ⟨0x3C2#11, [0x7F#8, 0xFF#8, 0xFE#8, 0x0C#8, 0#8], 0#32⟩ ≤ 0 := by
  unfold State.ChargeBounded
  decide
/-- T3.6: 35 mA over 10 ms. -/
theorem witness_DeadBandMovesNothing : bench.charge.toInt ≤ bench.cfg.maxCharge.toInt ∧ 0 ≤ bench.charge.toInt ∧
    (frameCurrent ⟨0x3C2#11, [0x80#8, 0#8, 0#8, 0x23#8, 0#8], 20020#32⟩ *
      elapsedMs { bench with prevValid := true, prevMs := 20010#32 }
        ⟨0x3C2#11, [0x80#8, 0#8, 0#8, 0x23#8, 0#8], 20020#32⟩).natAbs < 360 := by decide
/-- T3.11: 512 ms across the wrap. -/
theorem witness_ElapsedTimeSurvivesOneClockWrap : 512 < 2 ^ 32 ∧
    ({ bench with prevValid := true, prevMs := 0xFFFFFF00#32 } : State).prevValid = true ∧
    (⟨0x3C2#11, [0x80#8, 0#8, 1#8, 0x68#8, 0#8], 256#32⟩ : Frame).nowMs = 0xFFFFFF00#32 + BitVec.ofNat 32 512 ∧
    0 ≤ bench.charge.toInt := by decide
theorem witness_IgnoredAndShortFramesChangeNothing :
    (⟨0x3C3#11, 8#4, 0x800003E801000000#64, 5#32⟩ : FrameWord).id ≠ bench.cfg.sensorAddr ∧
    (frm 4#4 0#64 0#32).dlc.toNat < 5 ∧ (frm 4#4 0#64 0#32).dlc.toNat ≤ 8 ∧
    ({ bench with inputs := [frameReq (frm 4#4 0#64 0#32)] } : State).inputs =
      .req 0b010#3 0#17 0#17 (frm 4#4 0#64 0#32) false :: [] := by decide
theorem witness_FaultFrameEmitsOneEvent : 5 ≤ (frm 5#4 0xFFFFFFFF85000000#64 77#32).dlc.toNat ∧
    (frm 8#4 0xFFFFFFFF85000000#64 77#32).dlc.toNat ≤ 8 ∧
    (frm 5#4 0xFFFFFFFF85000000#64 77#32).payload.getLsbD 24 = true ∧
    (frm 5#4 0xFFFFFFFF85000000#64 77#32).id = bench.cfg.sensorAddr ∧
    ({ bench with inputs := [frameReq (frm 5#4 0xFFFFFFFF85000000#64 77#32)] } : State).inputs =
      .req 0b010#3 0#17 0#17 (frm 5#4 0xFFFFFFFF85000000#64 77#32) false :: [] := by decide
theorem witness_FramesLeaveTheSamplerAlone :
    Instr.frameData ⟨0x3C2#11, [0x80#8, 0#8, 0#8, 0x23#8, 0#8], 1#32⟩ ∈ frameOps ⟨0x3C2#11, [0x80#8, 0#8, 0#8, 0x23#8, 0#8], 1#32⟩ := by
  decide
theorem witness_ReceiveEnableGatesNothing : (frm 5#4 0x80000024FE000000#64 5#32).dlc.toNat ≤ 8 ∧
    ({ bench with inputs := [frameReq (frm 5#4 0x80000024FE000000#64 5#32)] } : State).inputs =
      .req 0b010#3 0#17 0#17 (frm 5#4 0x80000024FE000000#64 5#32) false :: [] := by decide
/-- The clause about a cleared `prev_valid` is met by RESET alone; the one about a set one by a Data frame. -/
theorem witness_PrevValidSetByDataClearedByReset : ({ bench with prevValid := true } : State).prevValid = true ∧
    (State.resetBlock { bench with prevValid := true }).prevValid = false ∧ bench.prevValid = false ∧
    (bench.accept ⟨0x3C2#11, [0x80#8, 0#8, 0#8, 0x23#8, 0#8], 1#32⟩).prevValid = true := by decide
theorem witness_TickAndFrameCommute : Instr.frameFault ⟨0x3C2#11, [0#8, 0#8, 0#8, 0#8, 3#8], 1#32⟩ ∈
    frameOps ⟨0x3C2#11, [0#8, 0#8, 0#8, 0#8, 3#8], 1#32⟩ := by decide
theorem witness_ChargeStaysBounded : bench.cfg.legal ∧ bench.ChargeBounded ∧ ∀ w, Instr.reset ≠ .cfgWrite w :=
  ⟨bench_legal, ⟨by decide, by decide⟩, fun _ h => by cases h⟩

/-- A state that meets every invariant, with the tick and the frame of P4 to come. -/
def running : State := { bench with inputs := [bothAtOnce true, .cfg (.maxCharge 4000000#32)] }

theorem running_windowInv : running.WindowInv := ⟨by decide, by decide⟩
theorem running_external : running.ExternalInputs := by
  unfold State.ExternalInputs
  decide
theorem running_chargeInv : running.ChargeInv := ⟨by decide, bench_legal, by decide⟩
theorem running_switchInv : running.SwitchInv := .inl ⟨rfl, rfl, by decide⟩
theorem running_steps : (match step running with
    | .next t => decide (t.inputs.length = 2)
    | .fault _ => false
    | .refused _ => false) = true := by decide
theorem running_next : ∃ t, step running = .next t := by
  have h := running_steps
  cases hs : step running with
  | next t => exact ⟨t, rfl⟩
  | fault r => cases r
  | refused r => simp [hs] at h

theorem witness_StepKeepsWindowAndIndexInvariants : running.WindowInv ∧ running.IndexInv ∧ ∃ t, step running = .next t :=
  ⟨running_windowInv, rfl, running_next⟩
theorem witness_StepKeepsSwitchInvariant : running.ExternalInputs ∧ running.SwitchInv ∧ ∃ t, step running = .next t :=
  ⟨running_external, running_switchInv, running_next⟩
theorem witness_StepKeepsChargeNonNegative : running.ChargeInv ∧ ∃ t, step running = .next t :=
  ⟨running_chargeInv, running_next⟩
theorem witness_SafeRunsStaySafe : running.Safe :=
  ⟨running_windowInv, rfl, running_switchInv, running_chargeInv, running_external⟩

end Sys2Proof.Machine
end

