-- ==== Sys2Proof/Proofs/AgentInputs.lean ====
section
/-! PROOFS. What the decoder can answer on the request port, the frame classes and the read port, and from it the operations
an agent's input starts (00_scope.md R6, R7). -/

namespace Sys2Proof.Machine

/-! What each decoder can answer. -/

theorem classify_mem_frameOps (addr : BitVec 11) (f : Frame) : classify addr f ∈ frameOps f := by
  unfold classify
  cases f.classOf addr <;> simp [frameOps]

theorem decodeRead_cases (sel : BitVec 2) (idx : Word32) :
    decodeRead sel idx = .rdVolt idx ∨ decodeRead sel idx = .rdTemp idx ∨
      decodeRead sel idx = .rdCur ∨ decodeRead sel idx = .rdChg := by
  unfold decodeRead
  split_ifs <;> simp

/-- 30_encoding.md R91, R92: the answers of the request port, each with the strobes that give it. -/
theorem decodeReq_cases {addr : BitVec 11} {strobes : BitVec 3} {rsp0 rsp1 : BitVec 17} {w : FrameWord} {frameFirst : Bool}
    {d : Decoded} (h : decodeReq addr strobes rsp0 rsp1 w frameFirst = .ok d) :
    (strobes.getLsbD 2 = true ∧ d = .one .reset) ∨
    (strobes.getLsbD 2 = false ∧ strobes.getLsbD 1 = false ∧
      (strobes.getLsbD 0 = false ∧ d = .idle ∨
       strobes.getLsbD 0 = true ∧ d = .one (.tick (decodeRsp rsp0) (decodeRsp rsp1)))) ∨
    (strobes.getLsbD 2 = false ∧ strobes.getLsbD 1 = true ∧ ∃ f, w.toFrame = .ok f ∧
      (strobes.getLsbD 0 = false ∧ d = .one (classify addr f) ∨
       strobes.getLsbD 0 = true ∧ frameFirst = true ∧
         d = .two (classify addr f) (.req 0b001#3 rsp0 rsp1 w frameFirst) ∨
       strobes.getLsbD 0 = true ∧ frameFirst = false ∧
         d = .two (.tick (decodeRsp rsp0) (decodeRsp rsp1)) (.req 0b010#3 rsp0 rsp1 w frameFirst))) := by
  unfold decodeReq at h
  cases hrst : strobes.getLsbD 2
  case true => simp_all
  case false =>
    cases hvalid : strobes.getLsbD 1
    case false => cases htick : strobes.getLsbD 0 <;> simp_all
    case true =>
      cases hframe : w.toFrame with
      | error e => simp_all
      | ok f => cases htick : strobes.getLsbD 0 <;> cases frameFirst <;> simp_all

/-! What an agent starts. -/

/-- The operations an agent starts as operations of their own (00_scope.md R6, R7). -/
def AgentOperation (i : Instr) : Prop :=
  i = .reset ∨ (∃ a b, i = .tick a b) ∨ (∃ f, i ∈ frameOps f) ∨ (∃ x, i = .rdVolt x) ∨ (∃ x, i = .rdTemp x) ∨
    i = .rdCur ∨ i = .rdChg ∨ ∃ w, i = .cfgWrite w

theorem agentOperation_reset : AgentOperation .reset := .inl rfl

theorem agentOperation_tick (rsp0 rsp1 : Rsp) : AgentOperation (.tick rsp0 rsp1) := .inr (.inl ⟨rsp0, rsp1, rfl⟩)

theorem agentOperation_classify (addr : BitVec 11) (f : Frame) : AgentOperation (classify addr f) :=
  .inr (.inr (.inl ⟨f, classify_mem_frameOps addr f⟩))

theorem agentOperation_decodeRead (sel : BitVec 2) (idx : Word32) : AgentOperation (decodeRead sel idx) := by
  rcases decodeRead_cases sel idx with h | h | h | h <;> simp [AgentOperation, h]

theorem agentOperation_cfgWrite (w : CfgWrite) : AgentOperation (.cfgWrite w) := by simp [AgentOperation]

/-- An answer of the decoder that starts only operations of an agent, and leaves only an agent's input for a second one. -/
def AgentDecoded : Decoded → Prop
  | .idle => True
  | .one i => AgentOperation i
  | .two i second => AgentOperation i ∧ second.external = true

theorem agentDecoded_of_decodeReq {addr : BitVec 11} {strobes : BitVec 3} {rsp0 rsp1 : BitVec 17} {w : FrameWord}
    {frameFirst : Bool} {d : Decoded} (h : decodeReq addr strobes rsp0 rsp1 w frameFirst = .ok d) : AgentDecoded d := by
  obtain ⟨-, rfl⟩ | ⟨-, -, ⟨-, rfl⟩ | ⟨-, rfl⟩⟩ |
    ⟨-, -, f, -, ⟨-, rfl⟩ | ⟨-, -, rfl⟩ | ⟨-, -, rfl⟩⟩ := decodeReq_cases h
  · exact agentOperation_reset
  · trivial
  · exact agentOperation_tick _ _
  · exact agentOperation_classify addr f
  · exact ⟨agentOperation_classify addr f, rfl⟩
  · exact ⟨agentOperation_tick _ _, rfl⟩

theorem agentDecoded_of_external {addr : BitVec 11} {inp : Input} {d : Decoded} (hext : inp.external = true)
    (h : decodeInput addr inp = .ok d) : AgentDecoded d := by
  cases inp with
  | req strobes rsp0 rsp1 w frameFirst => exact agentDecoded_of_decodeReq h
  | rdp sel idx => cases h; exact agentOperation_decodeRead sel idx
  | cfg w => cases h; exact agentOperation_cfgWrite w
  | foreign k => cases k <;> cases h
  | benchPush ch code => cases hext
  | benchCmd w => cases hext
  | benchEvt w => cases hext

/-- Settles O13, by the cases of the port the input stands on. -/
theorem agentsStartNoInternalOperation : Obligations.AgentsStartNoInternalOperation := by
  intro addr inp hext
  refine ⟨fun i second h => (agentDecoded_of_external hext h).2, fun i h => ?_⟩
  obtain h | ⟨second, h⟩ := h
  · exact agentDecoded_of_external hext h
  · exact (agentDecoded_of_external hext h).1

end Sys2Proof.Machine
end

