-- ==== Sys2Proof/Proofs/NextState.lean ====
section
/-! PROOFS. The next state of an operation as a function, the writers of each register (10_state.md R21 to R31, 20_memory.md
R74), and the one induction over a step's input that the invariants share. -/

namespace Sys2Proof.Machine

/-! The next state. -/

/-- The state after an operation: every operation completes (60_exceptions.md R230). -/
def nextState (s : State) : Instr → State
  | .reset => s.resetBlock
  | .tick rsp0 rsp1 => s.tick rsp0 rsp1
  | .winPush ch code => s.push ch code
  | .frameIgnore _ => s
  | .frameShort _ => s
  | .frameFault f => s.emitEvent (.fault (Config.faultMap f.faultCode) f.faultCode)
  | .frameData f => s.accept f
  | .rdVolt i => s.emitRead (s.voltage i)
  | .rdTemp i => s.emitRead (s.temperature i)
  | .rdCur => s.emitRead s.lastMA
  | .rdChg => s.emitRead s.charge
  | .cfgWrite w => s.setCfg (s.cfg.put w)
  | .swClr line => s.swClr line
  | .swSet line => s.swSet line
  | .adcStart ch => s.emitCmd (.adcStart ch)
  | .adcFetch c => s.emitCmd (.adcFetch c)
  | .evFault kind code => s.emitEvent (.fault kind code)
  | .evImbalance => s.emitEvent .imbalance

theorem exec_eq (i : Instr) (s : State) : exec i s = .next (nextState s i) := by cases i <;> rfl

/-! What a TICK leaves alone and where its registers come from (40_sampler.md R143). -/

variable (s : State) (rsp0 rsp1 : Rsp)

/-- Storing the two answers writes the windows only. -/
theorem stored_eq : stored s rsp0 rsp1 = { s with
    win := (stored s rsp0 rsp1).win, wpos := (stored s rsp0 rsp1).wpos, meanQ5 := (stored s rsp0 rsp1).meanQ5 } := by
  cases rsp0 <;> cases rsp1 <;> rfl

@[simp] theorem tick_win : (s.tick rsp0 rsp1).win = (stored s rsp0 rsp1).win := by rw [tick_eq]
@[simp] theorem tick_meanQ5 : (s.tick rsp0 rsp1).meanQ5 = (stored s rsp0 rsp1).meanQ5 := by rw [tick_eq]
@[simp] theorem tick_vidx : (s.tick rsp0 rsp1).vidx = s.vidx + 1#2 := by rw [tick_eq]
@[simp] theorem tick_tidx : (s.tick rsp0 rsp1).tidx = s.tidx + 1#2 := by rw [tick_eq]

/-- TICK writes neither the decoder registers nor the configuration, the reads or the inputs to come. -/
theorem tick_frame : s.tick rsp0 rsp1 = { s with
    win := (s.tick rsp0 rsp1).win, wpos := (s.tick rsp0 rsp1).wpos, meanQ5 := (s.tick rsp0 rsp1).meanQ5
    vidx := (s.tick rsp0 rsp1).vidx, tidx := (s.tick rsp0 rsp1).tidx, sw := (s.tick rsp0 rsp1).sw
    cmds := (s.tick rsp0 rsp1).cmds, events := (s.tick rsp0 rsp1).events } := by
  rw [tick_eq, stored_eq]

@[simp] theorem tick_lastMA : (s.tick rsp0 rsp1).lastMA = s.lastMA := by rw [tick_frame]
@[simp] theorem tick_prevMs : (s.tick rsp0 rsp1).prevMs = s.prevMs := by rw [tick_frame]
@[simp] theorem tick_prevValid : (s.tick rsp0 rsp1).prevValid = s.prevValid := by rw [tick_frame]
@[simp] theorem tick_charge : (s.tick rsp0 rsp1).charge = s.charge := by rw [tick_frame]
@[simp] theorem tick_cfg : (s.tick rsp0 rsp1).cfg = s.cfg := by rw [tick_frame]
@[simp] theorem tick_inputs : (s.tick rsp0 rsp1).inputs = s.inputs := by rw [tick_frame]

/-! The writers of each register (20_memory.md R74): a register an operation does not write keeps its value. -/

variable (i : Instr)

theorem nextState_inputs : (nextState s i).inputs = s.inputs := by
  cases i with
  | tick rsp0 rsp1 => exact tick_inputs s rsp0 rsp1
  | _ => rfl

theorem window_writers :
    ((nextState s i).win = s.win ∧ (nextState s i).wpos = s.wpos ∧ (nextState s i).meanQ5 = s.meanQ5) ∨
      i = .reset ∨ (∃ a b, i = .tick a b) ∨ ∃ ch code, i = .winPush ch code := by
  cases i with
  | reset => simp
  | tick a b => simp
  | winPush ch code => simp
  | _ => exact .inl ⟨rfl, rfl, rfl⟩

theorem index_writers : ((nextState s i).vidx = s.vidx ∧ (nextState s i).tidx = s.tidx) ∨
    i = .reset ∨ ∃ a b, i = .tick a b := by
  cases i with
  | reset => simp
  | tick a b => simp
  | _ => exact .inl ⟨rfl, rfl⟩

theorem switch_writers : (nextState s i).sw = s.sw ∨
    i = .reset ∨ (∃ a b, i = .tick a b) ∨ (∃ l, i = .swClr l) ∨ ∃ l, i = .swSet l := by
  cases i with
  | reset => simp
  | tick a b => simp
  | swClr l => simp
  | swSet l => simp
  | _ => exact .inl rfl

theorem decoder_writers :
    ((nextState s i).lastMA = s.lastMA ∧ (nextState s i).prevMs = s.prevMs ∧ (nextState s i).prevValid = s.prevValid ∧
      (nextState s i).charge = s.charge) ∨ i = .reset ∨ ∃ f, i = .frameData f := by
  cases i with
  | reset => simp
  | frameData f => simp
  | tick a b => exact .inl ⟨tick_lastMA s a b, tick_prevMs s a b, tick_prevValid s a b, tick_charge s a b⟩
  | _ => exact .inl ⟨rfl, rfl, rfl, rfl⟩

theorem cfg_writers : (nextState s i).cfg = s.cfg ∨ ∃ w, i = .cfgWrite w := by
  cases i with
  | cfgWrite w => simp
  | tick a b => exact .inl (tick_cfg s a b)
  | _ => exact .inl rfl

theorem cmds_writers : (nextState s i).cmds = s.cmds ∨ (∃ a b, i = .tick a b) ∨ (∃ l, i = .swClr l) ∨
    (∃ l, i = .swSet l) ∨ (∃ ch, i = .adcStart ch) ∨ ∃ c, i = .adcFetch c := by
  cases i with
  | tick a b => simp
  | swClr l => simp
  | swSet l => simp
  | adcStart ch => simp
  | adcFetch c => simp
  | _ => exact .inl rfl

/-- Settles O48: the writers of every register, assembled. -/
theorem registersChangeOnlyUnderTheirWriters : Obligations.RegistersChangeOnlyUnderTheirWriters := fun i s =>
  ⟨nextState s i, exec_eq i s, window_writers s i, index_writers s i, switch_writers s i, decoder_writers s i,
    cfg_writers s i, cmds_writers s i⟩

/-! One step. -/

/-- An answer of the decoder that starts only operations of `Op`, and leaves only inputs of `In` for a second one. -/
def StartsOnly (Op : Instr → Prop) (In : Input → Prop) : Decoded → Prop
  | .idle => True
  | .one i => Op i
  | .two i second => Op i ∧ In second

/-- What a step that answers does: nothing, the input taken and nothing started, or one operation on the state with the
input taken or with the second of a pair in its place. -/
theorem step_next_cases {s t : State} (h : step s = .next t) :
    (s.inputs = [] ∧ t = s) ∨ ∃ inp rest d, s.inputs = inp :: rest ∧ decodeInput s.cfg.sensorAddr inp = .ok d ∧
      (d = .idle ∧ t = s.setInputs rest ∨ (∃ i, d = .one i ∧ t = nextState (s.setInputs rest) i) ∨
        ∃ i second, d = .two i second ∧ t = nextState (s.setInputs (second :: rest)) i) := by
  cases hin : s.inputs with
  | nil => exact .inl ⟨rfl, by simpa [step_nil s hin] using h.symm⟩
  | cons inp rest =>
    rw [step_cons s hin] at h
    cases hd : decodeInput s.cfg.sensorAddr inp with
    | error e => simp [hd] at h
    | ok d =>
      refine .inr ⟨inp, rest, d, rfl, hd, ?_⟩
      cases d <;> simp_all [exec_eq]

/-- An invariant that every operation of `Op` keeps and the queue does not matter to is kept by every step, if inputs of `In`
start only operations of `Op`; and the inputs to come stay in `In`. -/
theorem step_keeps {P : State → Prop} {Op : Instr → Prop} {In : Input → Prop}
    (hdecode : ∀ addr inp d, In inp → decodeInput addr inp = .ok d → StartsOnly Op In d)
    (hqueue : ∀ s is, P s → P (s.setInputs is)) (hop : ∀ s i, Op i → P s → P (nextState s i))
    {s t : State} (hin : ∀ inp ∈ s.inputs, In inp) (hs : P s) (h : step s = .next t) :
    P t ∧ ∀ inp ∈ t.inputs, In inp := by
  obtain ⟨-, rfl⟩ | ⟨inp, rest, d, hinputs, hd, hcases⟩ := step_next_cases h
  · exact ⟨hs, hin⟩
  · rw [hinputs, List.forall_mem_cons] at hin
    obtain ⟨hinp, hrest⟩ := hin
    have hwithin := hdecode _ _ _ hinp hd
    obtain ⟨rfl, rfl⟩ | ⟨i, rfl, rfl⟩ | ⟨i, second, rfl, rfl⟩ := hcases
    · exact ⟨hqueue s rest hs, hrest⟩
    · refine ⟨hop _ i hwithin (hqueue s rest hs), ?_⟩
      rwa [nextState_inputs]
    · obtain ⟨hi, hsecond⟩ := hwithin
      refine ⟨hop _ i hi (hqueue s _ hs), ?_⟩
      rw [nextState_inputs]
      exact List.forall_mem_cons.2 ⟨hsecond, hrest⟩

end Sys2Proof.Machine
end

