-- ==== Sys2Proof/Proofs/WindowsAndSwitches.lean ====
section
/-! PROOFS. The invariants of the windows, the indices and the switch lines (10_state.md R50, R51, R53). -/

namespace Sys2Proof.Machine

/-! The window and index invariants (10_state.md R50, R53). -/

variable {s t : State}

theorem windowInv_congr (hwin : t.win = s.win) (hmean : t.meanQ5 = s.meanQ5) : t.WindowInv ↔ s.WindowInv := by
  simp only [State.WindowInv, State.meanAt, State.winSum, State.winRead, hwin, hmean]

theorem resetBlock_windowInv (s : State) : s.resetBlock.WindowInv :=
  ⟨rfl, fun ch => by simp [State.winSum]⟩

/-- A push keeps the invariant: its own channel by the new sum, every other since neither mean nor window changed. -/
theorem push_windowInv (h : s.WindowInv) (ch : Channel) (code : Sample) : (s.push ch code).WindowInv := by
  obtain ⟨hwf, hmean⟩ := h
  refine ⟨push_wf s ch code hwf, fun c => ?_⟩
  by_cases hc : c = ch
  · subst hc
    exact push_mean_self s c code
  · rw [push_meanAt, if_neg hc, push_winSum_other s ch code hwf hc, hmean]

theorem store_windowInv (h : s.WindowInv) (ch : Channel) (rsp : Rsp) : (s.store ch rsp).WindowInv := by
  cases rsp with
  | notReady => exact h
  | ready code => exact push_windowInv h ch code

theorem tick_windowInv (h : s.WindowInv) (rsp0 rsp1 : Rsp) : (s.tick rsp0 rsp1).WindowInv := by
  rw [windowInv_congr (tick_win s rsp0 rsp1) (tick_meanQ5 s rsp0 rsp1)]
  exact store_windowInv (store_windowInv h _ rsp0) _ rsp1

theorem nextState_windowInv (h : s.WindowInv) (i : Instr) : (nextState s i).WindowInv := by
  obtain ⟨hwin, -, hmean⟩ | rfl | ⟨a, b, rfl⟩ | ⟨ch, code, rfl⟩ := window_writers s i
  · exact (windowInv_congr hwin hmean).2 h
  · exact resetBlock_windowInv s
  · exact tick_windowInv h a b
  · exact push_windowInv h ch code

theorem tick_indexInv (h : s.IndexInv) (rsp0 rsp1 : Rsp) : (s.tick rsp0 rsp1).IndexInv := by
  rw [State.IndexInv, tick_vidx, tick_tidx, h]

theorem nextState_indexInv (h : s.IndexInv) (i : Instr) : (nextState s i).IndexInv := by
  obtain ⟨hv, ht⟩ | rfl | ⟨a, b, rfl⟩ := index_writers s i
  · exact hv.trans (h.trans ht.symm)
  · rfl
  · exact tick_indexInv h a b

/-- Settles O52: every operation, whatever input starts it, keeps both invariants. -/
theorem stepKeepsWindowAndIndexInvariants : Obligations.StepKeepsWindowAndIndexInvariants := by
  intro s t hwindow hindex hstep
  have hkeeps := step_keeps (P := fun s => s.WindowInv ∧ s.IndexInv) (Op := fun _ => True) (In := fun _ => True)
    (fun _ _ d _ _ => by cases d <;> simp [StartsOnly])
    (fun _ _ h => h)
    (fun _ i _ h => ⟨nextState_windowInv h.1 i, nextState_indexInv h.2 i⟩)
    (fun _ _ => trivial) ⟨hwindow, hindex⟩ hstep
  exact hkeeps.1

/-! The switch lines (10_state.md R51). -/

theorem switchInv_congr (hsw : t.sw = s.sw) (hv : t.vidx = s.vidx) (ht : t.tidx = s.tidx) :
    t.SwitchInv ↔ s.SwitchInv := by
  simp only [State.SwitchInv, State.swAt, State.routedLine, hsw, hv, ht]

theorem resetBlock_switchInv (s : State) : s.resetBlock.SwitchInv := .inl ⟨rfl, rfl, resetBlock_swAt s⟩

/-- After a TICK exactly the lines of the channels its indices name are asserted. -/
theorem tick_routedLine (s : State) (rsp0 rsp1 : Rsp) (line : Line) :
    (s.tick rsp0 rsp1).swAt line = (s.tick rsp0 rsp1).routedLine line := by
  rw [tick_swAt, State.routedLine, tick_vidx, tick_tidx]

/-- An agent starts no SW_CLR and no SW_SET: only RESET and TICK write the lines. -/
theorem nextState_switchInv (h : s.SwitchInv) {i : Instr} (hi : AgentOperation i) : (nextState s i).SwitchInv := by
  obtain hsw | rfl | ⟨a, b, rfl⟩ | ⟨l, rfl⟩ | ⟨l, rfl⟩ := switch_writers s i
  · obtain ⟨hv, ht⟩ | rfl | ⟨a, b, rfl⟩ := index_writers s i
    · exact (switchInv_congr hsw hv ht).2 h
    · exact resetBlock_switchInv s
    · exact .inr (tick_routedLine s a b)
  · exact resetBlock_switchInv s
  · exact .inr (tick_routedLine s a b)
  · simp [AgentOperation, frameOps] at hi
  · simp [AgentOperation, frameOps] at hi

/-- Settles O53: an agent's input starts only operations of an agent, and these keep the invariant. -/
theorem stepKeepsSwitchInvariant : Obligations.StepKeepsSwitchInvariant := by
  intro s t hexternal hswitch hstep
  refine step_keeps (P := State.SwitchInv) (Op := AgentOperation) (In := fun inp => inp.external = true)
    (fun _ _ d hext hd => ?_) (fun _ _ h => h) (fun _ _ hi h => nextState_switchInv h hi) hexternal hswitch hstep
  have hagent := agentDecoded_of_external hext hd
  cases d <;> exact hagent

/-- The lines of channels `v` and `4 + t` by their numbers (20_memory.md R66). -/
theorem lineOfPair_iff : ∀ (v t : BitVec 2) (line : Line),
    lineOfPair (voltChannel v) (thermChannel t) line = true ↔
      line = BitVec.ofNat 4 (2 * v.toNat) ∨ line = BitVec.ofNat 4 (2 * v.toNat + 1) ∨
      line = BitVec.ofNat 4 (2 * (4 + t.toNat)) ∨ line = BitVec.ofNat 4 (2 * (4 + t.toNat) + 1) := by
  decide

theorem lineOfPair_count : ∀ v t : BitVec 2, ((List.range 16).filter fun l =>
    lineOfPair (voltChannel v) (thermChannel t) (BitVec.ofNat 4 l)).length = 4 := by
  decide

/-- Settles O22: the lines RESET and TICK leave, read off the routed lines. -/
theorem switchLevelsAfterResetAndTick : Obligations.SwitchLevelsAfterResetAndTick := by
  intro s rsp0 rsp1
  refine ⟨⟨s.resetBlock, rfl, resetBlock_swAt s⟩, s.tick rsp0 rsp1, rfl, fun line => ?_, ?_⟩
  · rw [tick_routedLine]
    exact lineOfPair_iff _ _ line
  · simp only [tick_routedLine]
    exact lineOfPair_count _ _

end Sys2Proof.Machine
end

