-- ==== Sys2Proof/Proofs/DecoderAndConfig.lean ====
section
/-! PROOFS. CFG.WRITE (10_state.md R40), the decoder registers and the bound of the charge (R27, R52), and the reset state. -/

namespace Sys2Proof.Machine

/-! CFG.WRITE (10_state.md R40). -/

theorem pick_put (c : TCoef) (m m' : CoefMember) (v : F32) : (c.put m v).pick m' = if m' = m then v else c.pick m' := by
  cases m <;> cases m' <;> rfl

theorem put_vscale_vscaleAt (c : Cfg) (b b' : BitVec 2) (v : F32) :
    (c.put (.vscale b v)).vscaleAt b' = if b' = b then v else c.vscaleAt b' := by
  simp only [Cfg.vscaleAt, Cfg.put, Vector.getElem_set, BitVec.toNat_inj, eq_comm]

theorem put_tcoef_tcoefAt (c : Cfg) (b b' : BitVec 2) (m : CoefMember) (v : F32) :
    (c.put (.tcoef b m v)).tcoefAt b' = if b' = b then (c.tcoefAt b).put m v else c.tcoefAt b' := by
  simp only [Cfg.tcoefAt, Cfg.put, Vector.getElem_set, BitVec.toNat_inj, eq_comm]

theorem put_tcoef_pick (c : Cfg) (b b' : BitVec 2) (m m' : CoefMember) (v : F32) :
    ((c.put (.tcoef b m v)).tcoefAt b').pick m' = if b' = b ∧ m' = m then v else (c.tcoefAt b').pick m' := by
  rw [put_tcoef_tcoefAt]
  by_cases hb : b' = b
  · simp [hb, pick_put]
  · simp [hb]

/-- Settles O43, by the forms of CFG.WRITE. -/
theorem cfgWriteReplacesOneField : Obligations.CfgWriteReplacesOneField := by
  intro w s
  refine ⟨s.cfg.put w, rfl, ?_⟩
  cases w with
  | vscale b v => exact ⟨rfl, fun b' => put_vscale_vscaleAt s.cfg b b' v⟩
  | tcoef b m v => exact ⟨rfl, fun b' m' => put_tcoef_pick s.cfg b b' m m' v⟩
  | _ => rfl

/-! `prev_valid` (10_state.md R27). -/

/-- `prev_valid` keeps its value, or RESET clears it, or FRAME.DATA sets it. -/
theorem nextState_prevValid_cases (s : State) (i : Instr) : (nextState s i).prevValid = s.prevValid ∨
    (i = .reset ∧ (nextState s i).prevValid = false) ∨ (∃ f, i = .frameData f) ∧ (nextState s i).prevValid = true := by
  obtain ⟨-, -, hsame, -⟩ | rfl | ⟨f, rfl⟩ := decoder_writers s i
  · exact .inl hsame
  · exact .inr (.inl ⟨rfl, rfl⟩)
  · exact .inr (.inr ⟨⟨f, rfl⟩, rfl⟩)

/-- Settles O49: an operation that changes `prev_valid` is the writer that gives it its new value. -/
theorem prevValidSetByDataClearedByReset : Obligations.PrevValidSetByDataClearedByReset := by
  intro i s
  refine ⟨nextState s i, exec_eq i s, ?_, fun hold hnew => ?_, ?_, fun hold hnew => ?_⟩
  · rintro ⟨f, rfl⟩
    rfl
  · obtain hsame | ⟨hreset, -⟩ | ⟨-, hset⟩ := nextState_prevValid_cases s i
    · simp [hsame, hold] at hnew
    · exact hreset
    · simp [hset] at hnew
  · rintro rfl
    rfl
  · obtain hsame | ⟨-, hclear⟩ | ⟨hdata, -⟩ := nextState_prevValid_cases s i
    · simp [hsame, hold] at hnew
    · simp [hclear] at hnew
    · exact hdata

/-! The bound of the charge (10_state.md R52). -/

variable {s : State}

theorem updatedCharge_bounded {charge maxCharge : Int} (delta : Int) (hcharge : 0 ≤ charge) (hmax : 0 ≤ maxCharge) :
    0 ≤ updatedCharge charge maxCharge delta ∧ updatedCharge charge maxCharge delta ≤ maxCharge := by
  simp only [updatedCharge]
  split_ifs <;> omega

theorem resetBlock_chargeBounded (h : s.cfg.legal) : s.resetBlock.ChargeBounded := by
  unfold Cfg.legal at h
  simp only [State.ChargeBounded, resetBlock_charge, resetBlock_cfg, toInt_resetCharge]
  unfold resetCharge
  omega

theorem accept_chargeBounded (f : Frame) (h : s.cfg.legal) (hcharge : 0 ≤ s.charge.toInt) :
    (s.accept f).ChargeBounded := by
  simp only [State.ChargeBounded, State.accept, setDecoder_charge, setDecoder_cfg, toInt_updatedCharge]
  exact updatedCharge_bounded _ hcharge h

/-- RESET and FRAME.DATA alone write the charge, and both leave it within its bound. -/
theorem nextState_charge (i : Instr) (h : s.cfg.legal) (hcharge : 0 ≤ s.charge.toInt) :
    (nextState s i).charge = s.charge ∨ (nextState s i).ChargeBounded := by
  obtain ⟨-, -, -, hsame⟩ | rfl | ⟨f, rfl⟩ := decoder_writers s i
  · exact .inl hsame
  · exact .inr (resetBlock_chargeBounded h)
  · exact .inr (accept_chargeBounded f h hcharge)

theorem nextState_charge_nonneg (i : Instr) (h : s.cfg.legal) (hcharge : 0 ≤ s.charge.toInt) :
    0 ≤ (nextState s i).charge.toInt := by
  obtain hsame | hbounded := nextState_charge i h hcharge
  · rwa [hsame]
  · exact hbounded.1

theorem nextState_chargeBounded {i : Instr} (hi : ∀ w, i ≠ .cfgWrite w) (h : s.cfg.legal) (hs : s.ChargeBounded) :
    (nextState s i).ChargeBounded := by
  obtain hsame | hbounded := nextState_charge i h hs.1
  · obtain hcfg | ⟨w, hw⟩ := cfg_writers s i
    · rwa [State.ChargeBounded, hsame, hcfg]
    · exact absurd hw (hi w)
  · exact hbounded

/-- Settles O51, from the two writers of the charge. -/
theorem chargeStaysBounded : Obligations.ChargeStaysBounded := by
  intro i s h
  refine ⟨nextState s i, exec_eq i s, ?_, ?_, fun hi => nextState_chargeBounded hi h, nextState_charge_nonneg i h⟩
  · rintro rfl
    exact resetBlock_chargeBounded h
  · rintro ⟨f, rfl⟩
    exact accept_chargeBounded f h

/-! Legal inputs (10_state.md R36, log 20). -/

/-- The operation is no CFG.WRITE of a `max_charge` outside its legal range. -/
def LegalOperation (i : Instr) : Prop := ∀ w, i = .cfgWrite w → (Input.cfg w).legal = true

theorem put_legal {c : Cfg} (h : c.legal) {w : CfgWrite} (hw : (Input.cfg w).legal = true) : (c.put w).legal := by
  cases w with
  | maxCharge v => exact of_decide_eq_true (p := 0 ≤ v.toInt) hw
  | _ => exact h

theorem nextState_cfg_legal {i : Instr} (hi : LegalOperation i) (h : s.cfg.legal) : (nextState s i).cfg.legal := by
  obtain hcfg | ⟨w, rfl⟩ := cfg_writers s i
  · rwa [hcfg]
  · exact put_legal h (hi w rfl)

theorem decodeCmd_cases {w : BitVec 6} {i : Instr} (h : decodeCmd w = some i) :
    (∃ l, i = .swClr l) ∨ (∃ l, i = .swSet l) ∨ (∃ ch, i = .adcStart ch) ∨ ∃ c, i = .adcFetch c := by
  simp only [decodeCmd] at h
  split_ifs at h <;> cases h <;> simp

theorem decodeEvt_cases {w : BitVec 11} {i : Instr} (h : decodeEvt w = some i) :
    (∃ kind code, i = .evFault kind code) ∨ i = .evImbalance := by
  unfold decodeEvt at h
  split_ifs at h
  · cases h
    simp
  · split at h <;> cases h
    simp

theorem decoded_of_benchCmd {addr : BitVec 11} {w : BitVec 6} {d : Decoded}
    (h : decodeInput addr (.benchCmd w) = .ok d) : ∃ i, decodeCmd w = some i ∧ d = .one i := by
  unfold decodeInput at h
  cases hi : decodeCmd w <;> simp_all

theorem decoded_of_benchEvt {addr : BitVec 11} {w : BitVec 11} {d : Decoded}
    (h : decodeInput addr (.benchEvt w) = .ok d) : ∃ i, decodeEvt w = some i ∧ d = .one i := by
  unfold decodeInput at h
  cases hi : decodeEvt w <;> simp_all

theorem legalOperation_of_ne_cfgWrite {i : Instr} (h : ∀ w, i ≠ .cfgWrite w) : LegalOperation i :=
  fun w hw => absurd hw (h w)

theorem legalOperation_tick (rsp0 rsp1 : Rsp) : LegalOperation (.tick rsp0 rsp1) :=
  legalOperation_of_ne_cfgWrite fun _ h => by cases h

theorem legalOperation_classify (addr : BitVec 11) (f : Frame) : LegalOperation (classify addr f) := by
  refine legalOperation_of_ne_cfgWrite fun w hw => ?_
  have hmem := classify_mem_frameOps addr f
  simp [hw, frameOps] at hmem

theorem legalOperation_decodeRead (sel : BitVec 2) (idx : Word32) : LegalOperation (decodeRead sel idx) := by
  refine legalOperation_of_ne_cfgWrite fun w hw => ?_
  rcases decodeRead_cases sel idx with h | h | h | h <;> simp [h] at hw

/-- An answer of the decoder that starts only legal operations, and leaves only a legal input for a second one. -/
def LegalDecoded : Decoded → Prop := StartsOnly LegalOperation fun inp => inp.legal = true

theorem legalDecoded_of_decodeReq {addr : BitVec 11} {strobes : BitVec 3} {rsp0 rsp1 : BitVec 17} {w : FrameWord}
    {frameFirst : Bool} {d : Decoded} (h : decodeReq addr strobes rsp0 rsp1 w frameFirst = .ok d) : LegalDecoded d := by
  obtain ⟨-, rfl⟩ | ⟨-, -, ⟨-, rfl⟩ | ⟨-, rfl⟩⟩ |
    ⟨-, -, f, -, ⟨-, rfl⟩ | ⟨-, -, rfl⟩ | ⟨-, -, rfl⟩⟩ := decodeReq_cases h
  · exact legalOperation_of_ne_cfgWrite fun _ h => by cases h
  · trivial
  · exact legalOperation_tick _ _
  · exact legalOperation_classify addr f
  · exact ⟨legalOperation_classify addr f, rfl⟩
  · exact ⟨legalOperation_tick _ _, rfl⟩

theorem legalDecoded_of_legal {addr : BitVec 11} {inp : Input} {d : Decoded} (hlegal : inp.legal = true)
    (h : decodeInput addr inp = .ok d) : LegalDecoded d := by
  cases inp with
  | req strobes rsp0 rsp1 w frameFirst => exact legalDecoded_of_decodeReq h
  | rdp sel idx => cases h; exact legalOperation_decodeRead sel idx
  | cfg w =>
    cases h
    intro w' hw'
    cases hw'
    exact hlegal
  | foreign k => cases k <;> cases h
  | benchPush ch code => cases h; exact legalOperation_of_ne_cfgWrite fun _ h => by cases h
  | benchCmd w =>
    obtain ⟨i, hi, rfl⟩ := decoded_of_benchCmd h
    exact legalOperation_of_ne_cfgWrite fun w hw => by simpa [hw] using decodeCmd_cases hi
  | benchEvt w =>
    obtain ⟨i, hi, rfl⟩ := decoded_of_benchEvt h
    exact legalOperation_of_ne_cfgWrite fun w hw => by simpa [hw] using decodeEvt_cases hi

/-- Settles O54: a legal input starts only legal operations, and these keep the charge and its bound non-negative. -/
theorem stepKeepsChargeNonNegative : Obligations.StepKeepsChargeNonNegative := by
  rintro s t ⟨hcharge, hcfg, hlegal⟩ hstep
  have hkeeps := step_keeps (P := fun s => 0 ≤ s.charge.toInt ∧ s.cfg.legal) (Op := LegalOperation)
    (In := fun inp => inp.legal = true) (fun _ _ _ => legalDecoded_of_legal) (fun _ _ h => h)
    (fun _ i hi h => ⟨nextState_charge_nonneg i h.2 h.1, nextState_cfg_legal hi h.2⟩) hlegal ⟨hcharge, hcfg⟩ hstep
  obtain ⟨⟨hcharge', hcfg'⟩, hlegal'⟩ := hkeeps
  exact ⟨hcharge', hcfg', hlegal'⟩

/-! The reset state (70_reset_and_hazards.md R271). -/

/-- RESET changes nothing in the state right after reset, so what RESET establishes holds in it. -/
theorem resetBlock_reset : State.reset.resetBlock = State.reset := rfl

theorem initial_legal : Cfg.initial.legal := le_refl (0 : Int)

theorem reset_chargeInv : State.reset.ChargeInv :=
  ⟨(resetBlock_chargeBounded (s := State.reset) initial_legal).1, initial_legal, List.forall_mem_nil _⟩

/-- Settles O55, from the invariants RESET establishes in every state. -/
theorem resetStateIsSafe : Obligations.ResetStateIsSafe := by
  have hwindow := resetBlock_windowInv State.reset
  have hswitch := resetBlock_switchInv State.reset
  rw [resetBlock_reset] at hwindow hswitch
  exact ⟨hwindow, rfl, hswitch, reset_chargeInv, List.forall_mem_nil _⟩

end Sys2Proof.Machine
end

