-- ==== Sys2Proof/Proofs/StepsAndStreams.lean ====
section
/-! PROOFS. One step by what the next input starts (20_memory.md R73), the output commands and events as operations of their
own (R67, R68), and the order of a simultaneous tick and frame (R74, 30_encoding.md R92). -/

namespace Sys2Proof.Machine

variable {s : State} {inp second : Input} {rest : List Input} {i j : Instr}

/-! One step, by the answer of the decoder. -/

theorem step_of_one (h : s.inputs = inp :: rest) (hd : decodeInput s.cfg.sensorAddr inp = .ok (.one i)) :
    step s = exec i (s.setInputs rest) := by
  rw [step_cons s h, hd]

theorem step_of_two (h : s.inputs = inp :: rest) (hd : decodeInput s.cfg.sensorAddr inp = .ok (.two i second)) :
    step s = exec i (s.setInputs (second :: rest)) := by
  rw [step_cons s h, hd]

theorem step_of_idle (h : s.inputs = inp :: rest) (hd : decodeInput s.cfg.sensorAddr inp = .ok .idle) :
    step s = .next (s.setInputs rest) := by
  rw [step_cons s h, hd]

theorem step_of_error {e : DecodeError} (h : s.inputs = inp :: rest)
    (hd : decodeInput s.cfg.sensorAddr inp = .error e) : step s = .refused (refusalOf e) := by
  rw [step_cons s h, hd]

/-- Settles O1, by the answers of the decoder and the empty queue. -/
theorem stepPerformsTheDecodedOperation : Obligations.StepPerformsTheDecodedOperation :=
  ⟨fun _ _ _ h => ⟨fun _ => step_of_one h, fun _ _ => step_of_two h, step_of_idle h, fun _ => step_of_error h⟩, step_nil⟩

/-! The output commands and the events as operations (20_memory.md R67, R68). -/

/-- Setting a line to the level it was just set to changes no level. -/
theorem setSw_sw_repeat (s : State) (line : Line) (v : Bool) {t : State} (h : t.sw = (s.setSw line v).sw) :
    (t.setSw line v).sw = t.sw := by
  simp [h]

/-- Settles O44, by the level of every line after SW_SET and after SW_CLR. -/
theorem switchCommandsSetOneLine : Obligations.SwitchCommandsSetOneLine := fun s line =>
  ⟨⟨s.swSet line, (s.swSet line).swSet line, rfl, rfl, swSet_swAt s line, rfl, rfl,
      setSw_sw_repeat (s.emitCmd (.swSet line)) line true rfl⟩,
    ⟨s.swClr line, (s.swClr line).swClr line, rfl, rfl, swClr_swAt s line, rfl, rfl,
      setSw_sw_repeat (s.emitCmd (.swClr line)) line false rfl⟩⟩

/-- Settles O45: each operation is the append to its stream, by the definition of `exec`. -/
theorem converterCommandsAndEventsOnlyAppend : Obligations.ConverterCommandsAndEventsOnlyAppend := fun _ =>
  ⟨fun _ => rfl, fun _ => rfl, fun _ _ => rfl, rfl⟩

/-! What a TICK does not read (20_memory.md R74): the decoder registers, the streams and the inputs to come. -/

/-- The levels of the switch lines when exactly the lines of two channels are asserted. -/
def levelsOfPair (nv nt : Channel) : Vector Bool 16 := Vector.ofFn fun l => lineOfPair nv nt (BitVec.ofFin l)

theorem tick_sw (s : State) (rsp0 rsp1 : Rsp) : (s.tick rsp0 rsp1).sw =
    levelsOfPair (voltChannel (s.vidx + 1#2)) (thermChannel (s.tidx + 1#2)) := by
  ext k hk
  have hline := tick_swAt s rsp0 rsp1 (BitVec.ofFin ⟨k, hk⟩)
  simpa [State.swAt, levelsOfPair] using hline

/-- The events of a TICK (40_sampler.md R141). -/
def tickEvents (s : State) (rsp0 rsp1 : Rsp) : List Event :=
  if wrapsAt s.vidx && (stored s rsp0 rsp1).imbalanced s.cfg.imbThresh then [.imbalance] else []

/-- The state after a TICK, written with nothing but what it reads. -/
theorem tick_eq_reads (s : State) (rsp0 rsp1 : Rsp) : s.tick rsp0 rsp1 = { stored s rsp0 rsp1 with
    vidx := s.vidx + 1#2
    tidx := s.tidx + 1#2
    sw := levelsOfPair (voltChannel (s.vidx + 1#2)) (thermChannel (s.tidx + 1#2))
    cmds := s.cmds ++ tickCmds (s.vidx + 1#2) (s.tidx + 1#2)
    events := s.events ++ tickEvents s rsp0 rsp1 } := by
  rw [tick_eq, tick_sw, tickEvents]

theorem tick_events (s : State) (rsp0 rsp1 : Rsp) :
    (s.tick rsp0 rsp1).events = s.events ++ tickEvents s rsp0 rsp1 := by
  rw [tick_eq_reads]

theorem tick_setInputs (s : State) (is : List Input) (rsp0 rsp1 : Rsp) :
    (s.setInputs is).tick rsp0 rsp1 = (s.tick rsp0 rsp1).setInputs is := by
  rw [tick_eq_reads, tick_eq_reads]
  cases rsp0 <;> cases rsp1 <;> rfl

theorem tick_setDecoder (s : State) (lastMA prevMs : Word32) (prevValid : Bool) (charge : Word32) (rsp0 rsp1 : Rsp) :
    (s.setDecoder lastMA prevMs prevValid charge).tick rsp0 rsp1 =
      (s.tick rsp0 rsp1).setDecoder lastMA prevMs prevValid charge := by
  rw [tick_eq_reads, tick_eq_reads]
  cases rsp0 <;> cases rsp1 <;> rfl

/-- An event emitted before a TICK stands before the TICK's own, and changes nothing else of it. -/
theorem tick_emitEvent (s : State) (e : Event) (rsp0 rsp1 : Rsp) : (s.emitEvent e).tick rsp0 rsp1 =
    { s.tick rsp0 rsp1 with events := s.events ++ ([e] ++ tickEvents s rsp0 rsp1) } := by
  rw [tick_eq_reads, tick_eq_reads, ← List.append_assoc]
  cases rsp0 <;> cases rsp1 <;> rfl

theorem tick_accept (s : State) (f : Frame) (rsp0 rsp1 : Rsp) :
    (s.accept f).tick rsp0 rsp1 = (s.tick rsp0 rsp1).accept f := by
  simp only [State.accept, State.elapsed, tick_setDecoder, tick_prevValid, tick_prevMs, tick_charge, tick_cfg]

/-! Operations one after the other. -/

theorem performAll_eq (is : List Instr) (s : State) : performAll is s = .next (is.foldl nextState s) := by
  induction is generalizing s with
  | nil => rfl
  | cons i rest ih => simp only [performAll, exec_eq, ih, List.foldl_cons]

/-- TICK and `op` in either order give the same state but for the order of their events (20_memory.md R74). -/
def CommutesWithTick (rsp0 rsp1 : Rsp) (s : State) (op : Instr) : Prop :=
  ∃ a b tickEvs opEvs, performAll [.tick rsp0 rsp1, op] s = .next a ∧ performAll [op, .tick rsp0 rsp1] s = .next b ∧
    a = { b with events := a.events } ∧ a.events = s.events ++ (tickEvs ++ opEvs) ∧
    b.events = s.events ++ (opEvs ++ tickEvs)

/-- An operation that emits no event need only give the same state in both orders. -/
theorem commutesWithTick_of_silent {rsp0 rsp1 : Rsp} {op : Instr}
    (horder : (nextState s op).tick rsp0 rsp1 = nextState (s.tick rsp0 rsp1) op)
    (hsilent : ∀ t, (nextState t op).events = t.events) : CommutesWithTick rsp0 rsp1 s op := by
  have hevents : (nextState (s.tick rsp0 rsp1) op).events = s.events ++ tickEvents s rsp0 rsp1 :=
    (hsilent _).trans (tick_events s rsp0 rsp1)
  refine ⟨_, _, tickEvents s rsp0 rsp1, [], performAll_eq _ s, performAll_eq _ s, ?_, ?_, ?_⟩
  · exact congrArg (fun t => { t with events := (nextState (s.tick rsp0 rsp1) op).events }) horder.symm
  · rwa [List.append_nil]
  · exact (congrArg State.events horder).trans hevents

theorem frameFault_commutesWithTick (rsp0 rsp1 : Rsp) (s : State) (f : Frame) :
    CommutesWithTick rsp0 rsp1 s (.frameFault f) := by
  have hbefore := tick_emitEvent s (.fault (Config.faultMap f.faultCode) f.faultCode) rsp0 rsp1
  refine ⟨_, _, tickEvents s rsp0 rsp1, [.fault (Config.faultMap f.faultCode) f.faultCode], performAll_eq _ s,
    performAll_eq _ s, ?_, ?_, ?_⟩
  · simp only [List.foldl, nextState, hbefore]
    rfl
  · simp only [List.foldl, nextState, emitEvent_events, tick_events, List.append_assoc]
  · simp only [List.foldl, nextState, hbefore]

/-- Settles O50, by the class of the frame: only FAULT emits an event, only DATA writes registers, and TICK reads neither. -/
theorem tickAndFrameCommute : Obligations.TickAndFrameCommute := by
  intro rsp0 rsp1 f s op hop
  simp only [frameOps, List.mem_cons, List.not_mem_nil, or_false] at hop
  obtain rfl | rfl | rfl | rfl := hop
  · exact commutesWithTick_of_silent rfl fun _ => rfl
  · exact commutesWithTick_of_silent rfl fun _ => rfl
  · exact frameFault_commutesWithTick rsp0 rsp1 s f
  · exact commutesWithTick_of_silent (tick_accept s f rsp0 rsp1) fun _ => rfl

/-! A simultaneous tick and frame (30_encoding.md R92). -/

/-- No operation reads or writes the inputs still to come. -/
theorem nextState_setInputs (s : State) (is : List Input) (i : Instr) :
    nextState (s.setInputs is) i = (nextState s i).setInputs is := by
  cases i with
  | tick rsp0 rsp1 => exact tick_setInputs s is rsp0 rsp1
  | _ => rfl

/-- Two steps on an input that starts two operations perform both, on the state with the input taken. -/
theorem run_of_two (h : s.inputs = inp :: rest)
    (hfirst : decodeInput s.cfg.sensorAddr inp = .ok (.two i second))
    (hcfg : ∀ w, i ≠ .cfgWrite w)
    (hsecond : decodeInput s.cfg.sensorAddr second = .ok (.one j)) :
    Sys2Proof.core.run 2 s = performAll [i, j] (s.setInputs rest) := by
  let s₁ := nextState (s.setInputs (second :: rest)) i
  have hstep₁ : step s = .next s₁ := (step_of_two h hfirst).trans (exec_eq _ _)
  have haddr : s₁.cfg = s.cfg := (cfg_writers _ i).resolve_right fun ⟨w, hw⟩ => hcfg w hw
  have hinputs : s₁.inputs = second :: rest := nextState_inputs _ i
  have htaken : s₁.setInputs rest = nextState (s.setInputs rest) i := (nextState_setInputs _ rest i).symm
  have hstep₂ : step s₁ = .next (nextState (nextState (s.setInputs rest) i) j) := by
    rw [step_of_one hinputs (haddr ▸ hsecond), exec_eq, htaken]
  simp only [Host.Core.run, Sys2Proof.core, hstep₁, hstep₂, performAll_eq, List.foldl]

theorem toFrame_eq_portFrame {w : FrameWord} (h : w.dlc.toNat ≤ 8) : w.toFrame = .ok (portFrame w) := if_pos h

theorem decodeInput_tick (addr : BitVec 11) (rsp0 rsp1 : BitVec 17) (w : FrameWord) (d : Bool) :
    decodeInput addr (.req 0b001#3 rsp0 rsp1 w d) = .ok (.one (.tick (decodeRsp rsp0) (decodeRsp rsp1))) := rfl

theorem decodeInput_frame (addr : BitVec 11) (rsp0 rsp1 : BitVec 17) {w : FrameWord} (d : Bool) (h : w.dlc.toNat ≤ 8) :
    decodeInput addr (.req 0b010#3 rsp0 rsp1 w d) = .ok (.one (classify addr (portFrame w))) := by
  simp [decodeInput, decodeReq, toFrame_eq_portFrame h]

theorem decodeInput_tick_frame (addr : BitVec 11) (rsp0 rsp1 : BitVec 17) {w : FrameWord} (d : Bool)
    (h : w.dlc.toNat ≤ 8) : decodeInput addr (.req 0b011#3 rsp0 rsp1 w d) = .ok (if d
      then .two (classify addr (portFrame w)) (.req 0b001#3 rsp0 rsp1 w d)
      else .two (.tick (decodeRsp rsp0) (decodeRsp rsp1)) (.req 0b010#3 rsp0 rsp1 w d)) := by
  cases d <;> simp [decodeInput, decodeReq, toFrame_eq_portFrame h]

theorem classify_ne_cfgWrite (addr : BitVec 11) (f : Frame) (w : CfgWrite) : classify addr f ≠ .cfgWrite w := by
  intro h
  have hmem := classify_mem_frameOps addr f
  simp [h, frameOps] at hmem

/-- Settles O9, by the order the free bit draws. -/
theorem simultaneousTickAndFrameRunInEitherOrder : Obligations.SimultaneousTickAndFrameRunInEitherOrder := by
  intro s rsp0 rsp1 w d rest hdlc hinputs
  have hboth := decodeInput_tick_frame s.cfg.sensorAddr rsp0 rsp1 d hdlc
  cases d with
  | false =>
    have hrun := run_of_two hinputs hboth (fun _ h => by cases h) (decodeInput_frame _ rsp0 rsp1 false hdlc)
    exact ⟨_, hrun.trans (performAll_eq _ _), performAll_eq _ _⟩
  | true =>
    have hrun := run_of_two hinputs hboth (classify_ne_cfgWrite _ _) (decodeInput_tick _ rsp0 rsp1 w true)
    exact ⟨_, hrun.trans (performAll_eq _ _), performAll_eq _ _⟩

end Sys2Proof.Machine
end

