-- ==== Sys2Proof/Proofs/SampleRing.lean ====
section
/-! PROOFS. The window of a channel as a ring of its last 32 samples, and the mean numerator as their sum (20_memory.md R62,
R63, 10_state.md R21). -/

namespace Sys2Proof.Machine

/-! A list of pushes. -/

/-- The state after a list of pushes on one channel. -/
def State.pushAll (s : State) (ch : Channel) (codes : List Sample) : State :=
  codes.foldl (fun t code => t.push ch code) s

theorem performAll_pushes (s : State) (ch : Channel) (codes : List Sample) :
    performAll (pushes ch codes) s = .next (s.pushAll ch codes) := by
  induction codes generalizing s with
  | nil => rfl
  | cons code rest ih => exact ih (s.push ch code)

variable {s : State} (ch : Channel)

theorem pushAll_concat (s : State) (codes : List Sample) (code : Sample) :
    s.pushAll ch (codes ++ [code]) = (s.pushAll ch codes).push ch code :=
  List.foldl_append

theorem pushAll_wf (h : s.win.wf = true) (codes : List Sample) : (s.pushAll ch codes).win.wf = true := by
  induction codes using List.reverseRecOn with
  | nil => exact h
  | append_singleton codes code ih => rw [pushAll_concat]; exact push_wf _ ch code ih

theorem pushAll_wposAt (s : State) (codes : List Sample) :
    (s.pushAll ch codes).wposAt ch = s.wposAt ch + BitVec.ofNat 5 codes.length := by
  induction codes using List.reverseRecOn with
  | nil => simp [State.pushAll]
  | append_singleton codes code ih =>
    rw [pushAll_concat, push_wposAt, if_pos rfl, ih, List.length_append, BitVec.ofNat_add, BitVec.add_assoc]
    rfl

/-- Two places of the list fall on one slot exactly when they agree modulo 32. -/
theorem slot_eq_iff_mod (p : BitVec 5) (i n : Nat) : p + BitVec.ofNat 5 i = p + BitVec.ofNat 5 n ↔ i % 32 = n % 32 := by
  rw [BitVec.add_right_inj, ← BitVec.toNat_inj, BitVec.toNat_ofNat, BitVec.toNat_ofNat]

/-- The slot of place `i` after one more push: the new sample if the ring has come round to it, else what it held. -/
theorem pushAll_concat_winRead (h : s.win.wf = true) (codes : List Sample) (code : Sample) (i : Nat) :
    (s.pushAll ch (codes ++ [code])).winRead ch (s.wposAt ch + BitVec.ofNat 5 i) =
      if i % 32 = codes.length % 32 then code
      else (s.pushAll ch codes).winRead ch (s.wposAt ch + BitVec.ofNat 5 i) := by
  rw [pushAll_concat, push_winRead _ _ _ (pushAll_wf ch h codes), pushAll_wposAt]
  simp only [true_and, slot_eq_iff_mod]

/-- A sample of the last 32 stands in its slot: none of the later ones has come round to it. -/
theorem pushAll_winRead_recent (h : s.win.wf = true) (codes : List Sample) {i : Nat} (hi : i < codes.length)
    (hrecent : codes.length ≤ i + 32) :
    (s.pushAll ch codes).winRead ch (s.wposAt ch + BitVec.ofNat 5 i) = codes.getD i 0#16 := by
  induction codes using List.reverseRecOn with
  | nil => cases hi
  | append_singleton codes code ih =>
    rw [List.length_append, List.length_singleton] at hi hrecent
    rw [pushAll_concat_winRead ch h]
    obtain rfl | hlt : i = codes.length ∨ i < codes.length := by omega
    · simp
    · rw [if_neg (by omega), ih hlt (by omega), List.getD_append _ _ _ _ hlt]

/-- A slot the pushes have not come to yet keeps its word. -/
theorem pushAll_winRead_ahead (h : s.win.wf = true) (codes : List Sample) {i : Nat} (hi : codes.length ≤ i) (hi' : i < 32) :
    (s.pushAll ch codes).winRead ch (s.wposAt ch + BitVec.ofNat 5 i) =
      s.winRead ch (s.wposAt ch + BitVec.ofNat 5 i) := by
  induction codes using List.reverseRecOn with
  | nil => rfl
  | append_singleton codes code ih =>
    rw [List.length_append, List.length_singleton] at hi
    rw [pushAll_concat_winRead ch h, if_neg (by omega), ih (by omega)]

/-- From the oldest on, the window holds the last 32 samples in order (20_memory.md R62). -/
theorem pushAll_winRead_last (h : s.win.wf = true) {codes : List Sample} (hlen : 32 ≤ codes.length) {j : Nat}
    (hj : j < 32) : (s.pushAll ch codes).winRead ch (s.wposAt ch + BitVec.ofNat 5 (codes.length - 32 + j)) =
      codes.getD (codes.length - 32 + j) 0#16 :=
  pushAll_winRead_recent ch h codes (by omega) (by omega)

/-- From an empty window at position 0, a short list stands from slot 0 on, with zeros above (20_memory.md R62). -/
theorem pushAll_winRead_short (h : s.win.wf = true) (codes : List Sample) (hlen : codes.length < 32)
    (hpos : s.wposAt ch = 0#5) (hempty : ∀ k, s.winRead ch k = 0#16) (k : BitVec 5) :
    (s.pushAll ch codes).winRead ch k = codes.getD k.toNat 0#16 := by
  have hk : k = s.wposAt ch + BitVec.ofNat 5 k.toNat := by simp [hpos]
  obtain hlt | hle := Nat.lt_or_ge k.toNat codes.length
  · have hread := pushAll_winRead_recent ch h codes hlt (by omega)
    rwa [← hk] at hread
  · have hread := pushAll_winRead_ahead ch h codes hle k.isLt
    rw [← hk, hempty] at hread
    rw [hread, List.getD_eq_default _ _ hle]

/-- Settles O15, by the slots of the last 32 samples and those the pushes have not come to. -/
theorem windowIsARingOf32 : Obligations.WindowIsARingOf32 := by
  intro s ch codes hwf
  refine ⟨s.pushAll ch codes, performAll_pushes s ch codes, pushAll_wposAt ch s codes, fun j hj hlen => ?_,
    pushAll_winRead_short ch hwf codes⟩
  rw [pushAll_winRead_last ch hwf hlen hj, List.getD_eq_getElem _ _ (by omega), getElem!_pos codes _ (by omega)]

/-! The mean numerator. -/

theorem sum_getD_toInt (codes : List Sample) {n : Nat} (h : codes.length ≤ n) :
    ∑ i ∈ Finset.range n, (codes.getD i 0#16).toInt = (codes.map BitVec.toInt).sum := by
  induction codes generalizing n with
  | nil => simp
  | cons code rest ih =>
    obtain ⟨m, rfl⟩ : ∃ m, n = m + 1 := ⟨n - 1, by simp at h; omega⟩
    rw [Finset.sum_range_succ']
    simp [← ih (Nat.le_of_succ_le_succ h), add_comm]

/-- The 32 slots may be summed from any slot on: adding a constant permutes the slots. -/
theorem winSum_from (s : State) (p : BitVec 5) :
    s.winSum ch = ∑ j ∈ Finset.range 32, (s.winRead ch (p + BitVec.ofNat 5 j)).toInt := by
  calc s.winSum ch = ∑ j ∈ Finset.range 32, (s.winRead ch (BitVec.ofNat 5 j)).toInt := rfl
    _ = ∑ j : Fin 32, (s.winRead ch (BitVec.ofFin j)).toInt := by rw [Finset.sum_range]; simp
    _ = ∑ j : Fin 32, (s.winRead ch (BitVec.ofFin (p.toFin + j))).toInt :=
      (Equiv.sum_comp (Equiv.addLeft p.toFin) _).symm
    _ = ∑ j ∈ Finset.range 32, (s.winRead ch (p + BitVec.ofNat 5 j)).toInt := by rw [Finset.sum_range]; simp

/-- A window that holds a list of at most 32 samples from some slot on, with zeros after them, sums to the list's sum. -/
theorem winSum_of_slots {codes : List Sample} (p : BitVec 5) (hlen : codes.length ≤ 32)
    (h : ∀ j < 32, s.winRead ch (p + BitVec.ofNat 5 j) = codes.getD j 0#16) :
    s.winSum ch = (codes.map BitVec.toInt).sum := by
  rw [winSum_from ch s p, ← sum_getD_toInt codes hlen]
  exact Finset.sum_congr rfl fun j hj => by rw [h j (Finset.mem_range.1 hj)]

theorem pushAll_meanAt (s : State) {codes : List Sample} (h : codes ≠ []) :
    ((s.pushAll ch codes).meanAt ch).toInt = (s.pushAll ch codes).winSum ch := by
  rw [← List.dropLast_append_getLast h, pushAll_concat]
  exact push_mean_self _ ch _

/-- Settles O16: the mean is the window's sum, and the window holds the samples the ring has kept. -/
theorem meanIsOfTheLast32Samples : Obligations.MeanIsOfTheLast32Samples := by
  intro s ch codes hwf hne
  refine ⟨s.pushAll ch codes, performAll_pushes s ch codes, fun hlen => ?_, fun hlen hpos hempty => ?_⟩
  · rw [pushAll_meanAt ch s hne]
    refine winSum_of_slots ch (s.wposAt ch + BitVec.ofNat 5 (codes.length - 32)) (by simp; omega) fun j hj => ?_
    rw [BitVec.add_assoc, ← BitVec.ofNat_add, pushAll_winRead_last ch hwf hlen hj]
    simp
  · rw [pushAll_meanAt ch s hne]
    refine winSum_of_slots ch 0#5 hlen.le fun j hj => ?_
    rw [pushAll_winRead_short ch hwf codes hlen hpos hempty]
    simp [Nat.mod_eq_of_lt hj]

end Sys2Proof.Machine
end

