-- ==== Sys2Proof/Proofs/FrameFormat.lean ====
section
/-! PROOFS. The frame on the `FRM` port: its bytes and fields as slices of the payload (30_encoding.md R93 to R97), its class
(R100), and what an operation takes from it (R110). -/

namespace Sys2Proof.Machine

/-! Slices of a word. -/

/-- A slice of a slice is a slice of the word. -/
theorem extractLsb'_of_extractLsb' {n : Nat} (x : BitVec n) {start len start' len' : Nat} (h : start' + len' ≤ len) :
    (x.extractLsb' start len).extractLsb' start' len' = x.extractLsb' (start + start') len' := by
  ext i hi
  have hlen : start' + i < len := by omega
  simp [hlen, Nat.add_assoc]

/-- Flipping the top bit of a word moves the zero point of its unsigned reading to `2^31` (30_encoding.md R95). -/
theorem toInt_xor_topBit (x : Word32) : (x ^^^ 0x80000000#32).toInt = (x.toNat : Int) - 2 ^ 31 := by
  obtain ⟨top, low, rfl⟩ : ∃ (top : Bool) (low : BitVec 31), x = .cons top low :=
    ⟨_, _, (BitVec.cons_msb_setWidth x).symm⟩
  have htop : 0x80000000#32 = .cons true 0#31 := rfl
  rw [htop, BitVec.cons_xor_cons, BitVec.toInt_eq_msb_cond, BitVec.msb_cons, BitVec.toNat_cons', BitVec.toNat_cons']
  cases top
  · simp
    omega
  · simp

/-- Closing up bit 0 keeps the upper seven bits (30_encoding.md R97). -/
theorem closeUpBit_zero (st : Byte) : closeUpBit 0 st = st.extractLsb' 1 7 := by
  apply BitVec.eq_of_toNat_eq
  simp [closeUpBit, Nat.mod_one]

/-! The bytes and the fields of the frame on the port. -/

variable {w : FrameWord} {f g : Frame} {addr : BitVec 11}

@[simp] theorem portFrame_id (w : FrameWord) : (portFrame w).id = w.id := rfl
@[simp] theorem portFrame_nowMs (w : FrameWord) : (portFrame w).nowMs = w.nowMs := rfl

theorem portFrame_dlc (h : w.dlc.toNat ≤ 8) : (portFrame w).dlc = w.dlc.toNat := by
  simp [Frame.dlc, portFrame, payloadBytes, h]

theorem portFrame_fits (h : w.dlc.toNat ≤ 8) : (portFrame w).fits = true := by
  simp [Frame.fits, portFrame_dlc h, h]

/-- `data[n] = P[63 - 8n : 56 - 8n]` (30_encoding.md R93). -/
theorem payloadBytes_getD (p : BitVec 64) {n : Nat} (hn : n < 8) :
    (payloadBytes p).getD n 0#8 = p.extractLsb' (56 - 8 * n) 8 := by
  interval_cases n <;> rfl

/-- A byte the frame carries is a slice of the payload. -/
theorem portFrame_byte_present {n : Nat} (hn : n < 8) (h : n < w.dlc.toNat) :
    (portFrame w).byte n = w.payload.extractLsb' (56 - 8 * n) 8 := by
  rw [← payloadBytes_getD w.payload hn]
  simp [Frame.byte, portFrame, List.getD_eq_getElem?_getD, h]

/-- A byte at `dlc` or above does not exist and reads as 0 (30_encoding.md R94, R100). -/
theorem portFrame_byte_absent {n : Nat} (h : w.dlc.toNat ≤ n) : (portFrame w).byte n = 0#8 := by
  simp [Frame.byte, portFrame, List.getD_eq_getElem?_getD, Nat.not_lt.2 h]

theorem portFrame_raw (h : 4 ≤ w.dlc.toNat) : (portFrame w).raw = w.payload.extractLsb' 32 32 := by
  have hbyte : ∀ n < 4, (portFrame w).byte n = w.payload.extractLsb' (56 - 8 * n) 8 := fun n hn =>
    portFrame_byte_present (by omega) (by omega)
  rw [Frame.raw, hbyte 0 (by omega), hbyte 1 (by omega), hbyte 2 (by omega), hbyte 3 (by omega),
    BitVec.extractLsb'_append_extractLsb'_eq_extractLsb' (by decide : 56 = 48 + 8),
    BitVec.extractLsb'_append_extractLsb'_eq_extractLsb' (by decide : 48 = 40 + 8),
    BitVec.extractLsb'_append_extractLsb'_eq_extractLsb' (by decide : 40 = 32 + 8)]

theorem portFrame_status (h : 5 ≤ w.dlc.toNat) : (portFrame w).status = w.payload.extractLsb' 24 8 :=
  portFrame_byte_present (by decide) h

theorem portFrame_faultCode (h : 5 ≤ w.dlc.toNat) : (portFrame w).faultCode = w.payload.extractLsb' 25 7 := by
  rw [Frame.faultCode, portFrame_status h, Config.statusBit, closeUpBit_zero, extractLsb'_of_extractLsb' _ (by decide)]

theorem portFrame_statusBit (h : 5 ≤ w.dlc.toNat) : (portFrame w).statusBit = w.payload.getLsbD 24 := by
  simp [Frame.statusBit, portFrame_status h, Config.statusBit]

/-- Where the frame has no `data[4]`, its status bit counts as 0 (30_encoding.md R100). -/
theorem portFrame_statusBit_eq (w : FrameWord) :
    (portFrame w).statusBit = (decide (5 ≤ w.dlc.toNat) && w.payload.getLsbD 24) := by
  by_cases h : 5 ≤ w.dlc.toNat
  · simp [portFrame_statusBit h, h]
  · have habsent : (portFrame w).status = 0#8 := portFrame_byte_absent (n := 4) (by omega)
    simp [Frame.statusBit, habsent, h]

/-- Settles O6: every field is read off the bytes the frame carries. -/
theorem frameFieldsArePayloadSlices : Obligations.FrameFieldsArePayloadSlices := by
  intro w h5 h8
  have hraw := portFrame_raw (w := w) (by omega)
  have hcurrent : (portFrame w).current = ((w.payload.extractLsb' 32 32 : Word32).toNat : Int) - 2 ^ 31 := by
    rw [Frame.current, hraw]
    rfl
  exact ⟨hraw, portFrame_status h5, portFrame_faultCode h5, portFrame_statusBit h5, hcurrent,
    hcurrent.trans (toInt_xor_topBit _).symm⟩

/-! The class (30_encoding.md R100). -/

/-- The ordered tests of identifier, length and status bit. -/
theorem classify_eq (addr : BitVec 11) (f : Frame) : classify addr f =
    if f.id ≠ addr then .frameIgnore f
    else if f.dlc < 5 then .frameShort f
    else if f.statusBit then .frameFault f
    else .frameData f := by
  rw [classify, Frame.classOf, Config.minDlc, Config.statusByte]
  split_ifs <;> rfl

theorem classKey_portFrame (addr : BitVec 11) (h : w.dlc.toNat ≤ 8) : (portFrame w).classKey addr =
    BitVec.ofBool (w.id == addr) ++ BitVec.ofBool (decide (5 ≤ w.dlc.toNat)) ++
      BitVec.ofBool (decide (5 ≤ w.dlc.toNat) && w.payload.getLsbD 24) := by
  rw [Frame.classKey, portFrame_statusBit_eq, portFrame_dlc h]
  rfl

/-- The patterns of the class key are the ordered tests. -/
theorem classify_eq_of_classKey (addr : BitVec 11) (f : Frame) : classify addr f =
    if f.classKey addr &&& 0x4#3 = 0x0#3 then .frameIgnore f
    else if f.classKey addr &&& 0x6#3 = 0x4#3 then .frameShort f
    else if f.classKey addr = 0b111#3 then .frameFault f
    else .frameData f := by
  have hshort : f.dlc < 5 ↔ decide (Config.minDlc ≤ f.dlc) = false := by
    rw [decide_eq_false_iff_not, Config.minDlc, Config.statusByte, Nat.not_le]
  rw [classify_eq, Frame.classKey]
  simp only [hshort, ne_eq, ← beq_iff_eq (a := f.id)]
  cases f.id == addr <;> cases decide (Config.minDlc ≤ f.dlc) <;> cases f.statusBit <;> rfl

/-- Settles O5, by the ordered tests on the frame of the port. -/
theorem frameResolvesByOrderedTests : Obligations.FrameResolvesByOrderedTests := by
  intro addr rsp0 rsp1 w d h8
  have hdlc := portFrame_dlc h8
  rw [decodeInput_frame addr rsp0 rsp1 d h8]
  refine ⟨fun hid => ?_, fun hid hlen => ?_, fun hid hlen hbit => ?_, fun hid hlen hbit => ?_,
    classKey_portFrame addr h8, classify_eq_of_classKey addr (portFrame w)⟩ <;>
    rw [classify_eq]
  · simp [hid]
  · simp [hid, hdlc, hlen]
  · simp [hid, hdlc, Nat.not_lt.2 hlen, (portFrame_statusBit hlen).trans hbit]
  · simp [hid, hdlc, Nat.not_lt.2 hlen, (portFrame_statusBit hlen).trans hbit]

/-! What an operation takes from a frame (30_encoding.md R110). -/

/-- An operation depends on a frame of at least 5 bytes through identifier, clock, raw current and status byte only. -/
theorem nextState_classify_congr (hf : 5 ≤ f.dlc) (hg : 5 ≤ g.dlc) (hid : f.id = g.id) (hnow : f.nowMs = g.nowMs)
    (hraw : f.raw = g.raw) (hstatus : f.status = g.status) (addr : BitVec 11) (s : State) :
    nextState s (classify addr f) = nextState s (classify addr g) := by
  have hbit : f.statusBit = g.statusBit := congrArg (BitVec.getLsbD · Config.statusBit) hstatus
  have hcode : f.faultCode = g.faultCode := congrArg (closeUpBit Config.statusBit) hstatus
  have hcurrent : f.current = g.current := congrArg (fun raw : Word32 => (raw.toNat : Int) - Config.bias) hraw
  rw [classify_eq, classify_eq, hid, hbit, if_neg (Nat.not_lt.2 hf), if_neg (Nat.not_lt.2 hg)]
  split_ifs
  · rfl
  · simp only [nextState, hcode]
  · simp only [nextState, State.accept, hcurrent, hnow]

/-- Settles O7: `P[63:24]` holds the raw current and the status byte. -/
theorem bytesAfterTheStatusByteAreIgnored : Obligations.BytesAfterTheStatusByteAreIgnored := by
  intro addr v w hv5 hv8 hw5 hw8 hid hnow hpayload
  have hraw : (portFrame v).raw = (portFrame w).raw := by
    have hslice := congrArg (·.extractLsb' 8 32) hpayload
    simp only [extractLsb'_of_extractLsb' _ (show 8 + 32 ≤ 40 by decide)] at hslice
    rwa [portFrame_raw (by omega), portFrame_raw (by omega)]
  have hstatus : (portFrame v).status = (portFrame w).status := by
    have hslice := congrArg (·.extractLsb' 0 8) hpayload
    simp only [extractLsb'_of_extractLsb' _ (show 0 + 8 ≤ 40 by decide)] at hslice
    rwa [portFrame_status hv5, portFrame_status hw5]
  refine ⟨_, _, decodeInput_frame addr _ _ _ hv8, decodeInput_frame addr _ _ _ hw8, fun s => ⟨_, exec_eq _ s, ?_⟩⟩
  rw [exec_eq, nextState_classify_congr (portFrame_dlc hv8 ▸ hv5) (portFrame_dlc hw8 ▸ hw5) hid hnow hraw hstatus]

/-! Well-formed answers of the decoder. -/

/-- A frame of at most 8 bytes is well formed under the constructor of its class. -/
theorem classify_wf (addr : BitVec 11) (h : f.fits = true) : (classify addr f).wf addr = true := by
  unfold classify
  cases hclass : f.classOf addr <;> simp [Instr.wf, h, hclass]

theorem decodeRead_wf (addr : BitVec 11) (sel : BitVec 2) (idx : Word32) : (decodeRead sel idx).wf addr = true := by
  obtain h | h | h | h := decodeRead_cases sel idx <;> rw [h] <;> rfl

theorem toFrame_fits (h : w.toFrame = .ok f) : f.fits = true := by
  by_cases h8 : w.dlc.toNat ≤ 8
  · rw [toFrame_eq_portFrame h8] at h
    cases h
    exact portFrame_fits h8
  · simp [FrameWord.toFrame, h8] at h

/-- An answer of the decoder that starts only well-formed operations. -/
def WellFormedDecoded (addr : BitVec 11) : Decoded → Prop := StartsOnly (fun i => i.wf addr = true) fun _ => True

theorem wellFormedDecoded_of_decodeReq {strobes : BitVec 3} {rsp0 rsp1 : BitVec 17} {frameFirst : Bool} {d : Decoded}
    (h : decodeReq addr strobes rsp0 rsp1 w frameFirst = .ok d) : WellFormedDecoded addr d := by
  obtain ⟨-, rfl⟩ | ⟨-, -, ⟨-, rfl⟩ | ⟨-, rfl⟩⟩ |
    ⟨-, -, f, hf, ⟨-, rfl⟩ | ⟨-, -, rfl⟩ | ⟨-, -, rfl⟩⟩ := decodeReq_cases h
  · exact rfl
  · trivial
  · exact rfl
  · exact classify_wf addr (toFrame_fits hf)
  · exact ⟨classify_wf addr (toFrame_fits hf), trivial⟩
  · exact ⟨rfl, trivial⟩

theorem wellFormedDecoded_of_decodeInput {inp : Input} {d : Decoded} (h : decodeInput addr inp = .ok d) :
    WellFormedDecoded addr d := by
  cases inp with
  | req strobes rsp0 rsp1 w frameFirst => exact wellFormedDecoded_of_decodeReq h
  | rdp sel idx => cases h; exact decodeRead_wf addr sel idx
  | cfg w => cases h; exact rfl
  | foreign k => cases k <;> cases h
  | benchPush ch code => cases h; exact rfl
  | benchCmd w =>
    obtain ⟨i, hi, rfl⟩ := decoded_of_benchCmd h
    obtain ⟨_, rfl⟩ | ⟨_, rfl⟩ | ⟨_, rfl⟩ | ⟨_, rfl⟩ := decodeCmd_cases hi <;> exact rfl
  | benchEvt w =>
    obtain ⟨i, hi, rfl⟩ := decoded_of_benchEvt h
    obtain ⟨_, _, rfl⟩ | rfl := decodeEvt_cases hi <;> exact rfl

/-- Settles O4, by the ports: only frames have something to check, and the decoder cuts and classifies them. -/
theorem decodedInstructionsAreWellFormed : Obligations.DecodedInstructionsAreWellFormed := by
  rintro addr inp i (h | ⟨second, h⟩)
  · exact wellFormedDecoded_of_decodeInput h
  · exact (wellFormedDecoded_of_decodeInput h).1

end Sys2Proof.Machine
end

