-- ==== Sys2Proof/Proofs/PortWords.lean ====
section
/-! PROOFS. The words of the ports: the request strobes (30_encoding.md R91, R92), the inputs that are refused (R109), and the
command and event words by number (R98, R103 to R107). -/

namespace Sys2Proof.Machine

/-- Settles O2: each word is decoded by evaluation. -/
theorem sampleWordsDecode : Obligations.SampleWordsDecode := by
  unfold Obligations.SampleWordsDecode
  decide

/-! The request port. -/

variable {addr : BitVec 11} {strobes : BitVec 3} {w : FrameWord}

theorem decodeInput_reset (rsp0 rsp1 : BitVec 17) (w : FrameWord) (d : Bool) (hrst : strobes.getLsbD 2 = true) :
    decodeInput addr (.req strobes rsp0 rsp1 w d) = .ok (.one .reset) := if_pos hrst

theorem toFrame_dlcOver8 (h : 9 ≤ w.dlc.toNat) : w.toFrame = .error .dlcOver8 := if_neg (by omega)

theorem decodeInput_dlcOver8 (rsp0 rsp1 : BitVec 17) (d : Bool) (hrst : strobes.getLsbD 2 = false)
    (hvalid : strobes.getLsbD 1 = true) (h : 9 ≤ w.dlc.toNat) :
    decodeInput addr (.req strobes rsp0 rsp1 w d) = .error .dlcOver8 := by
  simp only [decodeInput, decodeReq, hrst, hvalid, toFrame_dlcOver8 h, Bool.false_eq_true, if_false, if_true]

/-- Settles O8, by the strobes. -/
theorem requestStrobesStartTheirOperations : Obligations.RequestStrobesStartTheirOperations := by
  intro addr strobes rsp0 rsp1 w d
  refine ⟨decodeInput_reset rsp0 rsp1 w d, ?_, ?_, ?_, ?_⟩ <;> rintro rfl
  · exact decodeInput_tick addr rsp0 rsp1 w d
  · rfl
  · exact decodeInput_frame addr rsp0 rsp1 d
  · exact decodeInput_tick_frame addr rsp0 rsp1 d

/-- Settles O10: the decoder answers an error, which the step refuses under its name. -/
theorem unpresentableFramesAreRefused : Obligations.UnpresentableFramesAreRefused := fun _ _ =>
  ⟨fun _ rsp0 rsp1 _ d hrst hvalid hdlc h => step_of_error h (decodeInput_dlcOver8 rsp0 rsp1 d hrst hvalid hdlc),
    fun h => step_of_error h rfl, fun h => step_of_error h rfl⟩

/-! Words as numbers. -/

theorem toNat_append_eq_add {m n : Nat} (x : BitVec m) (y : BitVec n) : (x ++ y).toNat = x.toNat * 2 ^ n + y.toNat := by
  rw [BitVec.toNat_append, ← Nat.shiftLeft_add_eq_or_of_lt y.isLt, Nat.shiftLeft_eq]

theorem toNat_extractLsb'_eq_mod {n : Nat} (x : BitVec n) (start len : Nat) :
    (x.extractLsb' start len).toNat = x.toNat / 2 ^ start % 2 ^ len := by
  rw [BitVec.extractLsb'_toNat, Nat.shiftRight_eq_div_pow]

theorem getLsbD_iff_mod {n : Nat} (x : BitVec n) (i : Nat) : x.getLsbD i = true ↔ x.toNat / 2 ^ i % 2 = 1 := by
  rw [BitVec.getLsbD, Nat.testBit_eq_decide_div_mod_eq, decide_eq_true_iff]

/-! Command words (30_encoding.md R103 to R106). -/

/-- The words no command has: the arguments 8 to 15 of ADC_START and 2 to 15 of ADC_FETCH. -/
theorem decodeCmd_eq_none_iff (w : BitVec 6) : decodeCmd w = none ↔
    (w.toNat / 16 = 2 ∧ 8 ≤ w.toNat % 16) ∨ (w.toNat / 16 = 3 ∧ 2 ≤ w.toNat % 16) := by
  have hw := w.isLt
  have hop (op : BitVec 2) : w.extractLsb' 4 2 = op ↔ w.toNat / 16 = op.toNat := by
    rw [← BitVec.toNat_inj, toNat_extractLsb'_eq_mod]
    omega
  have hstart : (w.extractLsb' 0 4).getLsbD 3 = true ↔ 8 ≤ w.toNat % 16 := by
    rw [getLsbD_iff_mod, toNat_extractLsb'_eq_mod]
    omega
  have hfetch : (w.extractLsb' 0 4).extractLsb' 1 3 = 0#3 ↔ w.toNat % 16 < 2 := by
    rw [← BitVec.toNat_inj, toNat_extractLsb'_eq_mod, toNat_extractLsb'_eq_mod, BitVec.toNat_ofNat]
    omega
  simp only [decodeCmd, hop, hstart, hfetch, BitVec.toNat_ofNat]
  split_ifs <;> simp <;> omega

theorem converterOf_eq (ch : Channel) : converterOf ch = BitVec.ofBool (ch.getLsbD 2) := by
  rw [converterOf]
  ext i hi
  obtain rfl : i = 0 := by omega
  simp

/-- Settles O11: the fields of a word as digits of its number. -/
theorem commandWordLayout : Obligations.CommandWordLayout := by
  refine ⟨fun l => ⟨?_, ?_⟩, fun ch => ?_, fun c => ?_, fun ch => congrArg some (converterOf_eq ch), fun c => rfl,
    fun w => ?_⟩
  · simp [Cmd.word, toNat_append_eq_add 0b00#2 l]
  · simp [Cmd.word, toNat_append_eq_add 0b01#2 l]
  · simp [Cmd.word, toNat_append_eq_add 0b10#2 (0#1 ++ ch), toNat_append_eq_add 0#1 ch]
  · simp [Cmd.word, toNat_append_eq_add 0b11#2 (0#3 ++ c), toNat_append_eq_add 0#3 c]
  · rw [decodeCmd_eq_none_iff]
    omega

/-! Event words (30_encoding.md R98, R107). -/

theorem faultKindOf_eq_none_iff : ∀ n : BitVec 3, faultKindOf n = none ↔ n = 7#3 := by decide

/-- The words no event has: kind 7, and `type = 1` but for the imbalance word. -/
theorem decodeEvt_eq_none_iff (w : BitVec 11) : decodeEvt w = none ↔
    (w.toNat < 1024 ∧ w.toNat / 128 = 7) ∨ (1024 ≤ w.toNat ∧ w.toNat ≠ 1024) := by
  have hw := w.isLt
  have htype : w.getLsbD 10 = true ↔ 1024 ≤ w.toNat := by
    rw [getLsbD_iff_mod]
    omega
  have himbalance : w = 0x400#11 ↔ w.toNat = 1024 := by rw [← BitVec.toNat_inj, BitVec.toNat_ofNat]
  have hkind : faultKindOf (w.extractLsb' 7 3) = none ↔ w.toNat / 128 % 8 = 7 := by
    rw [faultKindOf_eq_none_iff, ← BitVec.toNat_inj, toNat_extractLsb'_eq_mod]
    rfl
  simp only [decodeEvt, htype, himbalance]
  split_ifs
  · exact iff_of_false not_false (by omega)
  · exact iff_of_true rfl (by omega)
  · cases hk : faultKindOf (w.extractLsb' 7 3) <;> simp [hk] at hkind ⊢ <;> omega

/-- Settles O12: the fields of a word as digits of its number, the kinds by the list of R98. -/
theorem eventWordLayout : Obligations.EventWordLayout := by
  refine ⟨fun k code => ?_, rfl, rfl, fun w => ?_⟩
  · simp [Event.word, toNat_append_eq_add 0#1 (k.number ++ code), toNat_append_eq_add k.number code]
  · have hw := w.isLt
    rw [decodeEvt_eq_none_iff]
    omega

end Sys2Proof.Machine
end

