-- ==== Sys2Proof/Proofs/TickWindows.lean ====
section
/-! PROOFS. What a WIN.PUSH and a TICK leave in the windows of every channel (40_sampler.md R133 to R136, R146), and when a
TICK raises EV_IMBALANCE (R141, R145). -/

namespace Sys2Proof.Machine

/-! Channels by number (20_memory.md R71). -/

theorem voltChannel_toNat (b : BitVec 2) : (voltChannel b).toNat = b.toNat := BitVec.toNat_setWidth_of_le (by decide)

theorem thermChannel_toNat : ∀ b : BitVec 2, (thermChannel b).toNat = 4 + b.toNat := by decide

theorem converterOf_voltChannel : ∀ b : BitVec 2, converterOf (voltChannel b) = 0#1 := by decide

theorem converterOf_thermChannel : ∀ b : BitVec 2, converterOf (thermChannel b) = 1#1 := by decide

/-! The push (40_sampler.md R133). -/

variable {s t u : State} {ch : Channel}

/-- Settles O14, by the rules of the push. -/
theorem winPushStoresAdvancesAndSums : Obligations.WinPushStoresAdvancesAndSums := by
  intro s ch code hwf
  refine ⟨s.push ch code, rfl, push_winRead s ch code hwf, fun c => ?_, push_mean_self s ch code, fun c hc => ?_,
    push_wf s ch code hwf, push_eq s ch code⟩
  · rw [push_wposAt, apply_ite BitVec.toNat, BitVec.toNat_add]
    rfl
  · rw [push_meanAt, if_neg hc]

/-! Two states that hold the same in one channel. -/

/-- Window, write position and mean numerator of a channel are the same in both states. -/
def SameChannel (ch : Channel) (t u : State) : Prop :=
  t.wposAt ch = u.wposAt ch ∧ t.meanAt ch = u.meanAt ch ∧ ∀ k, t.winRead ch k = u.winRead ch k

theorem SameChannel.symm (h : SameChannel ch t u) : SameChannel ch u t := by
  obtain ⟨hpos, hmean, hread⟩ := h
  exact ⟨hpos.symm, hmean.symm, fun k => (hread k).symm⟩

theorem SameChannel.trans (h : SameChannel ch s t) (h' : SameChannel ch t u) : SameChannel ch s u := by
  obtain ⟨hpos, hmean, hread⟩ := h
  obtain ⟨hpos', hmean', hread'⟩ := h'
  exact ⟨hpos.trans hpos', hmean.trans hmean', fun k => (hread k).trans (hread' k)⟩

/-- That the mean numerator is the window's sum carries over to a state with the same channel. -/
theorem SameChannel.mean_eq_winSum (h : SameChannel ch t u) (hu : (u.meanAt ch).toInt = u.winSum ch) :
    (t.meanAt ch).toInt = t.winSum ch := by
  obtain ⟨-, hmean, hread⟩ := h
  rw [hmean, hu, winSum_congr hread]

theorem store_sameChannel_other (rsp : Rsp) (h : s.win.wf = true) {c : Channel} (hc : c ≠ ch) :
    SameChannel c (s.store ch rsp) s :=
  ⟨store_wposAt_other s ch rsp hc, store_meanAt_other s ch rsp hc, store_winRead_other s ch rsp h hc⟩

/-- What a push leaves in its channel depends on that channel only. -/
theorem push_sameChannel (ht : t.win.wf = true) (hu : u.win.wf = true) (h : SameChannel ch t u) (code : Sample) :
    SameChannel ch (t.push ch code) (u.push ch code) := by
  obtain ⟨hpos, -, hread⟩ := h
  have hread' : ∀ k, (t.push ch code).winRead ch k = (u.push ch code).winRead ch k := fun k => by
    rw [push_winRead t ch code ht, push_winRead u ch code hu, hpos, hread]
  refine ⟨?_, ?_, hread'⟩
  · rw [push_wposAt, push_wposAt, hpos]
  · rw [push_meanAt, push_meanAt, if_pos rfl, if_pos rfl, winSum_congr hread']

theorem store_sameChannel (ht : t.win.wf = true) (hu : u.win.wf = true) (h : SameChannel ch t u) (rsp : Rsp) :
    SameChannel ch (t.store ch rsp) (u.store ch rsp) := by
  cases rsp with
  | notReady => exact h
  | ready code => exact push_sameChannel ht hu h code

/-! The answer a TICK stores in a channel (40_sampler.md R131, R134). -/

/-- The answer a TICK stores in a channel, under the indices with which it begins; not-ready where it stores none. -/
def answerFor (s : State) (rsp0 rsp1 : Rsp) (ch : Channel) : Rsp :=
  if ch = voltChannel s.vidx then rsp0 else if ch = thermChannel s.tidx then rsp1 else .notReady

theorem answerFor_volt (s : State) (rsp0 rsp1 : Rsp) : answerFor s rsp0 rsp1 (voltChannel s.vidx) = rsp0 := if_pos rfl

theorem answerFor_therm (s : State) (rsp0 rsp1 : Rsp) : answerFor s rsp0 rsp1 (thermChannel s.tidx) = rsp1 := by
  rw [answerFor, if_neg (volt_ne_therm _ _).symm, if_pos rfl]

/-- A channel of converter 0 takes no answer of converter 1. -/
theorem answerFor_converter0 (s : State) (rsp1 : Rsp) (hch : converterOf ch = 0#1) :
    answerFor s .notReady rsp1 ch = .notReady := by
  have hne : ch ≠ thermChannel s.tidx := by
    rintro rfl
    simp [converterOf_thermChannel] at hch
  simp [answerFor, hne]

/-- A channel of converter 1 takes no answer of converter 0. -/
theorem answerFor_converter1 (s : State) (rsp0 : Rsp) (hch : converterOf ch = 1#1) :
    answerFor s rsp0 .notReady ch = .notReady := by
  have hne : ch ≠ voltChannel s.vidx := by
    rintro rfl
    simp [converterOf_voltChannel] at hch
  simp [answerFor, hne]

/-- The sample a TICK stores in a channel is the code of the channel's answer, when that is ready. -/
theorem sampleFor_cases (s : State) (rsp0 rsp1 : Rsp) (ch : Channel) :
    (answerFor s rsp0 rsp1 ch = .notReady ∧ sampleFor s rsp0 rsp1 ch = none) ∨
      ∃ code, answerFor s rsp0 rsp1 ch = .ready code ∧ sampleFor s rsp0 rsp1 ch = some code := by
  have hanswer : (if ch.toNat = s.vidx.toNat then rsp0 else if ch.toNat = 4 + s.tidx.toNat then rsp1 else .notReady) =
      answerFor s rsp0 rsp1 ch := by
    simp only [answerFor, ← BitVec.toNat_inj, voltChannel_toNat, thermChannel_toNat]
  simp only [sampleFor, hanswer]
  cases answerFor s rsp0 rsp1 ch with
  | notReady => exact .inl ⟨rfl, rfl⟩
  | ready code => exact .inr ⟨code, rfl, rfl⟩

/-! The windows after a TICK. -/

variable {rsp0 rsp1 : Rsp}

/-- The two answers fall on different channels, so each channel holds what its own answer alone would leave there. -/
theorem stored_sameChannel (h : s.win.wf = true) (rsp0 rsp1 : Rsp) (ch : Channel) :
    SameChannel ch (stored s rsp0 rsp1) (s.store ch (answerFor s rsp0 rsp1 ch)) := by
  have hwf := store_wf s (voltChannel s.vidx) rsp0 h
  by_cases htherm : ch = thermChannel s.tidx
  · subst htherm
    rw [answerFor_therm]
    exact store_sameChannel hwf h (store_sameChannel_other rsp0 h (volt_ne_therm _ _).symm) rsp1
  · have hother := store_sameChannel_other rsp1 hwf htherm
    by_cases hvolt : ch = voltChannel s.vidx
    · subst hvolt
      rwa [answerFor_volt]
    · rw [answerFor, if_neg hvolt, if_neg htherm]
      exact hother.trans (store_sameChannel_other rsp0 h hvolt)

@[simp] theorem tick_wpos (s : State) (rsp0 rsp1 : Rsp) : (s.tick rsp0 rsp1).wpos = (stored s rsp0 rsp1).wpos := by
  rw [tick_eq]

theorem tick_wf (h : s.win.wf = true) (rsp0 rsp1 : Rsp) : (s.tick rsp0 rsp1).win.wf = true := by
  rw [tick_win]
  exact stored_wf s rsp0 rsp1 h

theorem tick_sameChannel (h : s.win.wf = true) (rsp0 rsp1 : Rsp) (ch : Channel) :
    SameChannel ch (s.tick rsp0 rsp1) (s.store ch (answerFor s rsp0 rsp1 ch)) := by
  have hstored := stored_sameChannel h rsp0 rsp1 ch
  simpa only [SameChannel, State.wposAt, State.meanAt, State.winRead, tick_wpos, tick_meanQ5, tick_win] using hstored

/-- A channel without a ready answer is left as it was (40_sampler.md R135). -/
theorem tick_sameChannel_of_notReady (h : s.win.wf = true) (hans : answerFor s rsp0 rsp1 ch = .notReady) :
    SameChannel ch (s.tick rsp0 rsp1) s := by
  have hsame := tick_sameChannel h rsp0 rsp1 ch
  rwa [hans] at hsame

/-- A channel with a ready answer holds what the push of it leaves (40_sampler.md R134). -/
theorem tick_sameChannel_of_ready {code : Sample} (h : s.win.wf = true) (hans : answerFor s rsp0 rsp1 ch = .ready code) :
    SameChannel ch (s.tick rsp0 rsp1) (s.push ch code) := by
  have hsame := tick_sameChannel h rsp0 rsp1 ch
  rwa [hans] at hsame

theorem tick_winRead_of_ready {code : Sample} (h : s.win.wf = true) (hans : answerFor s rsp0 rsp1 ch = .ready code)
    (k : BitVec 5) : (s.tick rsp0 rsp1).winRead ch k = if k = s.wposAt ch then code else s.winRead ch k := by
  obtain ⟨-, -, hread⟩ := tick_sameChannel_of_ready h hans
  simp [hread, push_winRead s ch code h]

theorem tick_wposAt_of_ready {code : Sample} (h : s.win.wf = true) (hans : answerFor s rsp0 rsp1 ch = .ready code) :
    (s.tick rsp0 rsp1).wposAt ch = s.wposAt ch + 1#5 := by
  obtain ⟨hpos, -, -⟩ := tick_sameChannel_of_ready h hans
  rw [hpos, push_wposAt, if_pos rfl]

theorem tick_mean_of_ready {code : Sample} (h : s.win.wf = true) (hans : answerFor s rsp0 rsp1 ch = .ready code) :
    ((s.tick rsp0 rsp1).meanAt ch).toInt = (s.tick rsp0 rsp1).winSum ch :=
  (tick_sameChannel_of_ready h hans).mean_eq_winSum (push_mean_self s ch code)

/-! Two TICKs from one state: whatever the answers, only the windows and the events can differ (40_sampler.md R135). -/

@[simp] theorem tick_cmds (s : State) (rsp0 rsp1 : Rsp) :
    (s.tick rsp0 rsp1).cmds = s.cmds ++ tickCmds (s.vidx + 1#2) (s.tidx + 1#2) := by
  rw [tick_eq]

theorem tick_eq_tick (s : State) (a b a' b' : Rsp) : s.tick a b = { s.tick a' b' with
    win := (s.tick a b).win, wpos := (s.tick a b).wpos, meanQ5 := (s.tick a b).meanQ5
    events := (s.tick a b).events } := by
  rw [tick_frame s a b, tick_frame s a' b']
  simp only [tick_vidx, tick_tidx, tick_sw, tick_cmds]

theorem tick_answers_irrelevant (s : State) (a b a' b' : Rsp) :
    (s.tick a b).vidx = (s.tick a' b').vidx ∧ (s.tick a b).tidx = (s.tick a' b').tidx ∧
      (s.tick a b).sw = (s.tick a' b').sw ∧ (s.tick a b).cmds = (s.tick a' b').cmds := by
  rw [tick_eq_tick s a b a' b']
  exact ⟨rfl, rfl, rfl, rfl⟩

/-- Settles O23: no channel of the converter takes a ready answer. -/
theorem notReadyLeavesTheConverterGroup : Obligations.NotReadyLeavesTheConverterGroup := by
  intro s rsp0 rsp1 other hwf
  refine ⟨⟨_, _, exec_eq _ s, exec_eq _ s, fun ch hch => ?_, tick_answers_irrelevant s _ _ _ _⟩,
    ⟨_, _, exec_eq _ s, exec_eq _ s, fun ch hch => ?_, tick_answers_irrelevant s _ _ _ _⟩⟩
  · exact tick_sameChannel_of_notReady hwf (answerFor_converter0 s rsp1 hch)
  · exact tick_sameChannel_of_notReady hwf (answerFor_converter1 s rsp0 hch)

/-! The imbalance check (40_sampler.md R141, R142). -/

theorem bank_cases : ∀ b : BitVec 2, b = 0#2 ∨ b = 1#2 ∨ b = 2#2 ∨ b = 3#2 := by decide

theorem voltMean_bounds (s : State) (b : BitVec 2) :
    s.loMean ≤ (s.meanAt (voltChannel b)).toInt ∧ (s.meanAt (voltChannel b)).toInt ≤ s.hiMean := by
  obtain rfl | rfl | rfl | rfl := bank_cases b <;> simp [State.loMean, State.hiMean, voltChannel]

theorem exists_hiMean (s : State) : ∃ b, (s.meanAt (voltChannel b)).toInt = s.hiMean := by
  have hmax : (s.meanAt 0#3).toInt = s.hiMean ∨ (s.meanAt 1#3).toInt = s.hiMean ∨ (s.meanAt 2#3).toInt = s.hiMean ∨
      (s.meanAt 3#3).toInt = s.hiMean := by
    unfold State.hiMean
    omega
  obtain h | h | h | h := hmax
  exacts [⟨0#2, h⟩, ⟨1#2, h⟩, ⟨2#2, h⟩, ⟨3#2, h⟩]

theorem exists_loMean (s : State) : ∃ b, (s.meanAt (voltChannel b)).toInt = s.loMean := by
  have hmin : (s.meanAt 0#3).toInt = s.loMean ∨ (s.meanAt 1#3).toInt = s.loMean ∨ (s.meanAt 2#3).toInt = s.loMean ∨
      (s.meanAt 3#3).toInt = s.loMean := by
    unfold State.loMean
    omega
  obtain h | h | h | h := hmin
  exacts [⟨0#2, h⟩, ⟨1#2, h⟩, ⟨2#2, h⟩, ⟨3#2, h⟩]

theorem mean_sub_mean_gt (s : State) (c d : Channel) (thresh : Int) :
    s.mean c - s.mean d > (thresh : Rat) ↔ (s.meanAt c).toInt - (s.meanAt d).toInt > 32 * thresh := by
  rw [State.mean, State.mean, ← sub_div, gt_iff_lt, lt_div_iff₀ (by norm_num), mul_comm, gt_iff_lt]
  norm_cast

/-- The condition on the largest and the smallest mean is that some two means are further apart than the threshold. -/
theorem imbalanced_iff_spreadExceeds (s : State) (thresh : Word32) :
    s.imbalanced thresh = true ↔ s.spreadExceeds thresh.toInt := by
  simp only [imbalanced_iff, State.spreadExceeds, mean_sub_mean_gt]
  constructor
  · intro h
    obtain ⟨i, hi⟩ := exists_hiMean s
    obtain ⟨j, hj⟩ := exists_loMean s
    exact ⟨i, j, by rwa [hi, hj]⟩
  · rintro ⟨i, j, h⟩
    obtain ⟨-, hi⟩ := voltMean_bounds s i
    obtain ⟨hj, -⟩ := voltMean_bounds s j
    omega

theorem spreadExceeds_congr (h : ∀ b, t.meanAt (voltChannel b) = u.meanAt (voltChannel b)) (thresh : Int) :
    t.spreadExceeds thresh ↔ u.spreadExceeds thresh := by
  simp only [State.spreadExceeds, State.mean, h]

theorem tickEvents_cond_iff (s : State) (rsp0 rsp1 : Rsp) :
    (wrapsAt s.vidx && (stored s rsp0 rsp1).imbalanced s.cfg.imbThresh) = true ↔
      s.vidx = 3#2 ∧ (s.tick rsp0 rsp1).spreadExceeds s.cfg.imbThresh.toInt := by
  have hmeans : ∀ b, (stored s rsp0 rsp1).meanAt (voltChannel b) = (s.tick rsp0 rsp1).meanAt (voltChannel b) := fun b => by
    simp only [State.meanAt, tick_meanQ5]
  rw [Bool.and_eq_true, wrapsAt_iff, imbalanced_iff_spreadExceeds, spreadExceeds_congr hmeans]

theorem tick_events_of_imbalance
    (h : s.vidx = 3#2 ∧ (s.tick rsp0 rsp1).spreadExceeds s.cfg.imbThresh.toInt) :
    (s.tick rsp0 rsp1).events = s.events ++ [.imbalance] := by
  rw [tick_events, tickEvents, if_pos ((tickEvents_cond_iff s rsp0 rsp1).2 h)]

theorem tick_events_of_no_imbalance
    (h : ¬(s.vidx = 3#2 ∧ (s.tick rsp0 rsp1).spreadExceeds s.cfg.imbThresh.toInt)) :
    (s.tick rsp0 rsp1).events = s.events := by
  rw [tick_events, tickEvents, if_neg (mt (tickEvents_cond_iff s rsp0 rsp1).1 h), List.append_nil]

/-- Settles O25: a mean is no further from itself than 0, so a negative threshold is exceeded, and no other is when all
means are equal. -/
theorem thresholdSignAtTheWrap : Obligations.ThresholdSignAtTheWrap := by
  intro s rsp0 rsp1 hwrap
  refine ⟨s.tick rsp0 rsp1, rfl, fun hneg => tick_events_of_imbalance ⟨hwrap, 0#2, 0#2, ?_⟩,
    fun hequal hnonneg => tick_events_of_no_imbalance ?_⟩
  · rw [mean_sub_mean_gt]
    omega
  · rintro ⟨-, i, j, hspread⟩
    rw [mean_sub_mean_gt, hequal i j] at hspread
    omega

/-! The thermistor answer (40_sampler.md R146). -/

/-- Outside the thermistor channel in turn no channel depends on the answer of converter 1. -/
theorem tick_sameChannel_of_ne_therm (h : s.win.wf = true) (rsp0 a b : Rsp) (hch : ch ≠ thermChannel s.tidx) :
    SameChannel ch (s.tick rsp0 a) (s.tick rsp0 b) := by
  have hans : answerFor s rsp0 a ch = answerFor s rsp0 b ch := by simp only [answerFor, if_neg hch]
  have ha := tick_sameChannel h rsp0 a ch
  rw [hans] at ha
  exact ha.trans (tick_sameChannel h rsp0 b ch).symm

theorem tick_events_therm (h : s.win.wf = true) (rsp0 a b : Rsp) : (s.tick rsp0 a).events = (s.tick rsp0 b).events := by
  have hmeans : ∀ v, (s.tick rsp0 a).meanAt (voltChannel v) = (s.tick rsp0 b).meanAt (voltChannel v) := fun v => by
    obtain ⟨-, hmean, -⟩ := tick_sameChannel_of_ne_therm h rsp0 a b (volt_ne_therm v s.tidx)
    exact hmean
  by_cases hcond : s.vidx = 3#2 ∧ (s.tick rsp0 a).spreadExceeds s.cfg.imbThresh.toInt
  · rw [tick_events_of_imbalance hcond, tick_events_of_imbalance (by rwa [← spreadExceeds_congr hmeans])]
  · rw [tick_events_of_no_imbalance hcond, tick_events_of_no_imbalance (by rwa [← spreadExceeds_congr hmeans])]

/-- Settles O24: the answer of converter 1 reaches its own channel only, and the check reads voltage means only. -/
theorem thermistorSampleTouchesNoVoltageChannel : Obligations.ThermistorSampleTouchesNoVoltageChannel := by
  intro s rsp0 code hwf
  have hans : answerFor s rsp0 (.ready code) (thermChannel s.tidx) = .ready code := answerFor_therm s rsp0 _
  refine ⟨s.tick rsp0 (.ready code), s.tick rsp0 .notReady, rfl, rfl,
    fun ch hch => tick_sameChannel_of_ne_therm hwf rsp0 _ _ hch, ?_, tick_wposAt_of_ready hwf hans,
    tick_mean_of_ready hwf hans, ?_⟩
  · rw [tick_winRead_of_ready hwf hans, if_pos rfl]
  · rw [tick_eq_tick s rsp0 (.ready code) rsp0 .notReady, tick_events_therm hwf rsp0 (.ready code) .notReady]

/-! The whole next state (40_sampler.md R143). -/

theorem tick_swAt_iff (s : State) (rsp0 rsp1 : Rsp) (line : Line) : (s.tick rsp0 rsp1).swAt line = true ↔
    line.toNat / 2 = (s.tick rsp0 rsp1).vidx.toNat ∨ line.toNat / 2 = 4 + (s.tick rsp0 rsp1).tidx.toNat := by
  simp [tick_routedLine, State.routedLine, lineOfPair, voltChannel_toNat, thermChannel_toNat]

/-- Settles O17: per channel by the answer it takes, then the indices, the lines, the event and the frame. -/
theorem tickNextState : Obligations.TickNextState := by
  intro s rsp0 rsp1 hwf
  refine ⟨s.tick rsp0 rsp1, rfl, fun ch k => ?_, fun ch => ?_, fun ch hsome => ?_, fun ch hnone => ?_, ?_, ?_,
    tick_swAt_iff s rsp0 rsp1, ?_, tick_wf hwf rsp0 rsp1, tick_frame s rsp0 rsp1⟩
  · obtain ⟨hans, hsample⟩ | ⟨code, hans, hsample⟩ := sampleFor_cases s rsp0 rsp1 ch
    · obtain ⟨-, -, hread⟩ := tick_sameChannel_of_notReady hwf hans
      simp only [hsample, hread]
    · simp only [hsample, tick_winRead_of_ready hwf hans]
  · obtain ⟨hans, hsample⟩ | ⟨code, hans, hsample⟩ := sampleFor_cases s rsp0 rsp1 ch
    · obtain ⟨hpos, -, -⟩ := tick_sameChannel_of_notReady hwf hans
      simp [hsample, hpos]
    · simp [hsample, tick_wposAt_of_ready hwf hans]
  · obtain ⟨-, hsample⟩ | ⟨code, hans, -⟩ := sampleFor_cases s rsp0 rsp1 ch
    · simp [hsample] at hsome
    · exact tick_mean_of_ready hwf hans
  · obtain ⟨hans, -⟩ | ⟨code, -, hsample⟩ := sampleFor_cases s rsp0 rsp1 ch
    · obtain ⟨-, hmean, -⟩ := tick_sameChannel_of_notReady hwf hans
      exact hmean
    · simp [hsample] at hnone
  · simp
  · simp
  · by_cases hcond : s.vidx = 3#2 ∧ (s.tick rsp0 rsp1).spreadExceeds s.cfg.imbThresh.toInt
    · exact .inl ⟨hcond.1, hcond.2, tick_events_of_imbalance hcond⟩
    · exact .inr ⟨hcond, tick_events_of_no_imbalance hcond⟩

end Sys2Proof.Machine
end

