-- ==== Sys2Proof/Proofs/TickCommands.lean ====
section
/-! PROOFS. The command stream of a TICK (40_sampler.md R144): its replay on the switch lines (R138, R139) and the conversions
it starts (R131, R132). -/

namespace Sys2Proof.Machine

/-! The parts of the stream. -/

/-- The two fetches, before the answers are stored (40_sampler.md R134). -/
def fetchCmds : List Cmd := [.adcFetch 0#1, .adcFetch 1#1]

/-- The two starts, after the routing (40_sampler.md R140). -/
def startCmds (nv nt : Channel) : List Cmd := [.adcStart nv, .adcStart nt]

/-- The two fetches and the SW_CLR words: everything before the first SW_SET. -/
def breakCmds (v t : BitVec 2) : List Cmd :=
  fetchCmds ++ clearCmds (allChannels.filter fun c => c ≠ voltChannel v ∧ c ≠ thermChannel t)

/-- The SW_SET words and the two starts. -/
def makeCmds (v t : BitVec 2) : List Cmd :=
  assertCmds (voltChannel v) (thermChannel t) ++ startCmds (voltChannel v) (thermChannel t)

theorem tickCmds_eq (v t : BitVec 2) : tickCmds v t = breakCmds v t ++ makeCmds v t := List.append_assoc _ _ _

theorem breakCmds_set_nothing : ∀ (v t : BitVec 2) (l : Line), Cmd.swSet l ∉ breakCmds v t := by decide

theorem breakCmds_clear : ∀ (v t : BitVec 2) (l : Line), lineOfPair (voltChannel v) (thermChannel t) l = false →
    Cmd.swClr l ∈ breakCmds v t := by decide

theorem makeCmds_set_pair : ∀ (v t : BitVec 2) (l : Line), lineOfPair (voltChannel v) (thermChannel t) l = false →
    Cmd.swSet l ∉ makeCmds v t := by decide

theorem tickCmds_words : ∀ v : BitVec 2, (tickCmds v v).map Cmd.word = tickWords v.toNat := by decide

theorem tickWords_length : ∀ v : BitVec 2, (tickWords v.toNat).length = 20 := by decide

/-- Settles O18, by the words of each of the four indices. -/
theorem tickAppendsTwentyCommands : Obligations.TickAppendsTwentyCommands := by
  intro s rsp0 rsp1 hindex
  refine ⟨s.tick rsp0 rsp1, rfl, ?_, tickWords_length _⟩
  rw [tick_cmds, List.map_append, ← hindex, tickCmds_words, tick_vidx]

/-! Replaying commands on the switch lines (20_memory.md R67). -/

variable {levels : Vector Bool 16} {cmds : List Cmd} {line : Line}

theorem swAfter_append (levels : Vector Bool 16) (xs ys : List Cmd) :
    swAfter levels (xs ++ ys) = swAfter (swAfter levels xs) ys := List.foldl_append

theorem levelOf_set (levels : Vector Bool 16) (l m : Line) (v : Bool) :
    levelOf (levels.set l.toNat v l.isLt) m = if m = l then v else levelOf levels m := by
  simp only [levelOf, Vector.getElem_set, BitVec.toNat_inj, eq_comm]

/-- Without an SW_SET of its own a line that is de-asserted stays so. -/
theorem levelOf_swAfter_of_no_set (hlevel : levelOf levels line = false) (hset : Cmd.swSet line ∉ cmds) :
    levelOf (swAfter levels cmds) line = false := by
  induction cmds generalizing levels with
  | nil => exact hlevel
  | cons c rest ih =>
    rw [List.mem_cons, not_or] at hset
    obtain ⟨hc, hrest⟩ := hset
    refine ih ?_ hrest
    cases c with
    | swClr l => simp [Cmd.applyTo, levelOf_set, hlevel]
    | swSet l => simpa [Cmd.applyTo, levelOf_set, hlevel] using hc
    | adcStart ch => exact hlevel
    | adcFetch c => exact hlevel

theorem levelOf_of_asserted_after (hset : Cmd.swSet line ∉ cmds) (hlevel : levelOf (swAfter levels cmds) line = true) :
    levelOf levels line = true := by
  by_contra hlow
  rw [levelOf_swAfter_of_no_set (Bool.eq_false_iff.2 hlow) hset] at hlevel
  cases hlevel

/-- A line with an SW_CLR and no SW_SET among the commands is de-asserted after them. -/
theorem levelOf_swAfter_of_clear (levels : Vector Bool 16) (hclear : Cmd.swClr line ∈ cmds)
    (hset : Cmd.swSet line ∉ cmds) : levelOf (swAfter levels cmds) line = false := by
  obtain ⟨before, after, rfl⟩ := List.append_of_mem hclear
  rw [swAfter_append]
  refine levelOf_swAfter_of_no_set (cmds := after) ?_ fun h => hset (by simp [h])
  simp [Cmd.applyTo, levelOf_set]

theorem clearAll_sw (s : State) (chs : List Channel) :
    (chs.foldl State.clearPair s).sw = swAfter s.sw (clearCmds chs) := by
  induction chs generalizing s with
  | nil => rfl
  | cons c rest ih => exact ih (s.clearPair c)

theorem route_sw (s : State) (nv nt : Channel) : (s.route nv nt).sw =
    swAfter s.sw (clearCmds (allChannels.filter fun c => c ≠ nv ∧ c ≠ nt) ++ assertCmds nv nt) := by
  rw [swAfter_append, ← clearAll_sw]
  rfl

@[simp] theorem store_sw (s : State) (ch : Channel) (rsp : Rsp) : (s.store ch rsp).sw = s.sw := by cases rsp <;> rfl

theorem swAfter_fetchCmds (levels : Vector Bool 16) : swAfter levels fetchCmds = levels := rfl

theorem swAfter_startCmds (levels : Vector Bool 16) (nv nt : Channel) :
    swAfter levels (startCmds nv nt) = levels := rfl

/-- The stream of a TICK, replayed on the lines, gives the lines after it. -/
theorem swAfter_tickCmds (s : State) (rsp0 rsp1 : Rsp) :
    swAfter s.sw (tickCmds (s.vidx + 1#2) (s.tidx + 1#2)) = (s.tick rsp0 rsp1).sw := by
  simp only [State.tick, checkImbalance_eq, emitCmd_sw, route_sw, advance_sw, store_sw, advance_vidx, advance_tidx,
    store_vidx, store_tidx, emitCmd_vidx, emitCmd_tidx, tickCmds_eq, breakCmds, makeCmds, swAfter_append,
    swAfter_fetchCmds, swAfter_startCmds]

/-! Break before make (40_sampler.md R139). -/

variable {v t : BitVec 2} {pre post : List Cmd}

/-- Once the SW_CLR words are through, no line outside the new channels is asserted, whatever of the rest has followed. -/
theorem levelOf_after_break (levels : Vector Bool 16) (hpre : pre <+: makeCmds v t)
    (hline : lineOfPair (voltChannel v) (thermChannel t) line = false) :
    levelOf (swAfter levels (breakCmds v t ++ pre)) line = false := by
  rw [swAfter_append]
  exact levelOf_swAfter_of_no_set
    (levelOf_swAfter_of_clear levels (breakCmds_clear v t line hline) (breakCmds_set_nothing v t line))
    fun h => makeCmds_set_pair v t line hline (hpre.subset h)

/-- An initial part of the stream ends before the first SW_SET, or has all of the SW_CLR words. -/
theorem prefix_tickCmds_cases (h : tickCmds v t = pre ++ post) :
    (∃ rest, breakCmds v t = pre ++ rest ∧ post = rest ++ makeCmds v t) ∨
      ∃ made, pre = breakCmds v t ++ made ∧ made <+: makeCmds v t := by
  rw [tickCmds_eq, List.append_eq_append_iff] at h
  obtain ⟨made, hpre, hmake⟩ | ⟨rest, hbreak, hpost⟩ := h
  · exact .inr ⟨made, hpre, post, hmake.symm⟩
  · exact .inl ⟨rest, hbreak, hpost⟩

/-- An SW_SET of the stream stands after all the SW_CLR words. -/
theorem break_before_set (h : tickCmds v t = pre ++ Cmd.swSet line :: post) :
    ∃ made, pre = breakCmds v t ++ made ∧ made <+: makeCmds v t := by
  obtain ⟨rest, hbreak, hpost⟩ | hmade := prefix_tickCmds_cases h
  · cases rest with
    | nil => exact ⟨[], by simp [hbreak], List.nil_prefix⟩
    | cons c rest =>
      obtain ⟨rfl, -⟩ := List.cons.inj hpost
      exact absurd (by simp [hbreak]) (breakCmds_set_nothing v t line)
  · exact hmade

/-- Settles O20: at an SW_SET all the SW_CLR words are through. -/
theorem breakBeforeMake : Obligations.BreakBeforeMake := by
  intro s rsp0 rsp1
  refine ⟨s.tick rsp0 rsp1, _, rfl, tick_cmds s rsp0 rsp1, swAfter_tickCmds s rsp0 rsp1,
    fun pre line post hnew l hl => ?_⟩
  rw [tick_vidx, tick_tidx] at hl
  obtain ⟨made, rfl, hmade⟩ := break_before_set hnew
  exact levelOf_after_break s.sw hmade hl

/-- Of one group the pair of a voltage and a thermistor channel has the two lines of one channel. -/
theorem lineOfPair_same_channel {l m : Line} (hl : lineOfPair (voltChannel v) (thermChannel t) l = true)
    (hm : lineOfPair (voltChannel v) (thermChannel t) m = true) (hgroup : l.toNat / 8 = m.toNat / 8) :
    l.toNat / 2 = m.toNat / 2 := by
  simp only [lineOfPair, Bool.or_eq_true, beq_iff_eq, voltChannel_toNat, thermChannel_toNat] at hl hm
  omega

theorem lineOfPair_of_switchInv {s : State} (h : s.SwitchInv) (hline : s.swAt line = true) :
    lineOfPair (voltChannel s.vidx) (thermChannel s.tidx) line = true := by
  obtain ⟨-, -, hlow⟩ | hrouted := h
  · simp [hlow] at hline
  · rwa [hrouted] at hline

/-- At every point of the stream the asserted lines are of one pair of channels: of the old pair before the first SW_SET, of
the new one afterwards. -/
theorem asserted_within_one_pair {s : State} (hinv : s.SwitchInv) (h : tickCmds v t = pre ++ post) :
    ∃ v' t', ∀ l, levelOf (swAfter s.sw pre) l = true → lineOfPair (voltChannel v') (thermChannel t') l = true := by
  obtain ⟨rest, hbreak, -⟩ | ⟨made, rfl, hmade⟩ := prefix_tickCmds_cases h
  · refine ⟨s.vidx, s.tidx, fun l hl => lineOfPair_of_switchInv hinv (levelOf_of_asserted_after ?_ hl)⟩
    exact fun hset => breakCmds_set_nothing v t l (by simp [hbreak, hset])
  · refine ⟨v, t, fun l hl => ?_⟩
    by_contra hout
    rw [levelOf_after_break s.sw hmade (Bool.eq_false_iff.2 hout)] at hl
    cases hl

/-- Settles O21: lines of one pair that are of one group are of one channel. -/
theorem noTwoChannelsOfAGroupTogether : Obligations.NoTwoChannelsOfAGroupTogether := by
  intro s rsp0 rsp1 hinv
  refine ⟨s.tick rsp0 rsp1, _, rfl, tick_cmds s rsp0 rsp1, fun pre post hnew l m hl hm hgroup => ?_⟩
  obtain ⟨v, t, hpair⟩ := asserted_within_one_pair hinv hnew
  exact lineOfPair_same_channel (hpair l hl) (hpair m hm) hgroup

/-! The last conversion started on a converter (40_sampler.md R131, R132). -/

theorem lastStartFrom_append_of_some {c : BitVec 1} {found : Nat × Channel} (xs ys : List Cmd) (pos : Nat)
    (h : lastStartFrom c (pos + xs.length) ys = some found) : lastStartFrom c pos (xs ++ ys) = some found := by
  induction xs generalizing pos with
  | nil => exact h
  | cons x rest ih =>
    have hrest := ih (pos + 1) (by rw [← h, List.length_cons]; congr 1; omega)
    simp only [List.cons_append, lastStartFrom, hrest]

variable {nv nt : Channel}

theorem lastStart_append_startCmds (cmds : List Cmd) (hv : converterOf nv = 0#1) (ht : converterOf nt = 1#1) :
    lastStart 0#1 (cmds ++ startCmds nv nt) = some (cmds.length, nv) ∧
      lastStart 1#1 (cmds ++ startCmds nv nt) = some (cmds.length + 1, nt) := by
  constructor <;>
  · refine lastStartFrom_append_of_some cmds _ 0 ?_
    simp [startCmds, lastStartFrom, hv, ht]

/-- Under ENV-FRESH the code of a ready answer is the result of the last conversion started. -/
theorem EnvFresh.code_eq {result : Nat → Sample} {c : BitVec 1} {code : Sample} {pos : Nat} {ch : Channel}
    (h : EnvFresh result cmds c (.ready code)) (hstart : lastStart c cmds = some (pos, ch)) : code = result pos := by
  obtain ⟨pos', ch', hstart', hcode⟩ := h code rfl
  rw [hstart] at hstart'
  cases hstart'
  exact hcode

/-- The commands of a TICK end in the starts of the two channels its indices name. -/
theorem tick_cmds_starts (s : State) (rsp0 rsp1 : Rsp) : ∃ before, (s.tick rsp0 rsp1).cmds = before ++
    startCmds (voltChannel (s.tick rsp0 rsp1).vidx) (thermChannel (s.tick rsp0 rsp1).tidx) := by
  rw [tick_cmds, tickCmds_eq, makeCmds, ← List.append_assoc, ← List.append_assoc, tick_vidx, tick_tidx]
  exact ⟨_, rfl⟩

/-- Settles O26: a TICK starts the channels its indices name, and the next stores its answers under these indices. -/
theorem lagOneAttribution : Obligations.LagOneAttribution := by
  intro s rsp0 rsp1 result code0 code1 hwf
  obtain ⟨before, hcmds⟩ := tick_cmds_starts s rsp0 rsp1
  set t := s.tick rsp0 rsp1
  obtain ⟨hstart0, hstart1⟩ :=
    lastStart_append_startCmds before (converterOf_voltChannel t.vidx) (converterOf_thermChannel t.tidx)
  rw [← hcmds] at hstart0 hstart1
  have htwf : t.win.wf = true := tick_wf hwf rsp0 rsp1
  refine ⟨t, t.tick (.ready code0) (.ready code1), before.length, before.length + 1, rfl, hstart0, hstart1, ?_, ?_, rfl,
    fun hfresh => ?_, fun hfresh => ?_⟩
  · simp [hcmds, startCmds]
  · simp [hcmds, startCmds]
  · rw [tick_winRead_of_ready htwf (answerFor_volt t _ _), if_pos rfl, hfresh.code_eq hstart0]
  · rw [tick_winRead_of_ready htwf (answerFor_therm t _ _), if_pos rfl, hfresh.code_eq hstart1]

end Sys2Proof.Machine
end

