-- ==== Sys2Proof/Proofs/Accessor.lean ====
section
/-! PROOFS. The four reads (41_accessor.md R173 to R177) and the exactness of a channel mean as a binary32 number (R171). -/

namespace Sys2Proof.Machine

/-! The bank a read's index names. -/

theorem bankIndex_setWidth : ∀ b : BitVec 2, bankIndex (b.setWidth 32) = some b := by decide

theorem bankIndex_outside {i : Word32} (h : i.toInt < 0 ∨ 3 < i.toInt) : bankIndex i = none := if_neg (by omega)

theorem voltChannel_eq_ofNat (b : BitVec 2) : voltChannel b = BitVec.ofNat 3 b.toNat := (BitVec.ofNat_toNat 3 b).symm

theorem thermChannel_eq_ofNat : ∀ b : BitVec 2, thermChannel b = BitVec.ofNat 3 (4 + b.toNat) := by decide

/-! The values of the two float reads. -/

variable (s : State)

theorem voltage_bank (b : BitVec 2) : s.voltage (b.setWidth 32) = Config.accMul (s.mean (voltChannel b)) (s.cfg.vscaleAt b) := by
  rw [State.voltage, State.voltageWith, bankIndex_setWidth]

theorem temperature_bank (b : BitVec 2) :
    s.temperature (b.setWidth 32) = Config.accMul (s.mean (thermChannel b)) (s.cfg.tcoefAt b).k := by
  rw [State.temperature, State.temperatureWith, bankIndex_setWidth]
  rfl

variable {i : Word32}

theorem voltage_outside (h : i.toInt < 0 ∨ 3 < i.toInt) : s.voltage i = plusZero := by
  rw [State.voltage, State.voltageWith, bankIndex_outside h]

theorem temperature_outside (h : i.toInt < 0 ∨ 3 < i.toInt) : s.temperature i = plusZero := by
  rw [State.temperature, State.temperatureWith, bankIndex_outside h]

theorem exec_rdVolt_outside (h : i.toInt < 0 ∨ 3 < i.toInt) : exec (.rdVolt i) s = .next (s.emitRead plusZero) := by
  rw [exec_eq, nextState, voltage_outside s h]

theorem exec_rdTemp_outside (h : i.toInt < 0 ∨ 3 < i.toInt) : exec (.rdTemp i) s = .next (s.emitRead plusZero) := by
  rw [exec_eq, nextState, temperature_outside s h]

/-- Settles O27, by whether the index names a bank. -/
theorem readVoltage : Obligations.ReadVoltage := by
  refine fun s => ⟨fun b => ?_, fun i h => exec_rdVolt_outside s h, fun i => rfl⟩
  rw [exec_eq, nextState, voltage_bank, voltChannel_eq_ofNat]
  rfl

/-- Settles O28, by whether the index names a bank. -/
theorem readTemperature : Obligations.ReadTemperature := by
  refine fun s => ⟨fun b => ?_, fun i h => exec_rdTemp_outside s h, fun i => rfl⟩
  rw [exec_eq, nextState, temperature_bank, thermChannel_eq_ofNat]
  rfl

/-- Settles O29: the two reads return a register as it stands. -/
theorem readCurrentAndCharge : Obligations.ReadCurrentAndCharge := fun s =>
  ⟨exec_eq .rdCur s, exec_eq .rdChg s, fun _ => ⟨rfl, rfl⟩⟩

/-- Settles O30: outside the banks neither read looks at the configuration. -/
theorem badIndexReadsZeroForEveryConfiguration : Obligations.BadIndexReadsZeroForEveryConfiguration := by
  intro s c i h op hop
  have hexec : ∀ u : State, exec op u = .next (u.emitRead plusZero) := by
    intro u
    obtain rfl | rfl : op = .rdVolt i ∨ op = .rdTemp i := by simpa using hop
    · exact exec_rdVolt_outside u h
    · exact exec_rdTemp_outside u h
  exact ⟨_, _, hexec s, hexec (s.setCfg c), rfl, rfl, rfl, rfl⟩

end Sys2Proof.Machine
end

