-- ==== Sys2Proof/Proofs/FloatMean.lean ====
section
/-! PROOFS. A channel mean is a binary32 number (41_accessor.md R171): the default product of R172 with the factor 1.0 rounds
nothing away. -/

namespace Sys2Proof.Machine

/-! The number a pattern stands for, from its magnitude bits. -/

/-- The binary32 pattern of a sign bit over 31 magnitude bits, the form in which `roundF32` answers. -/
def signedPattern (sign : Bool) (mag : Nat) : F32 := BitVec.ofBool sign ++ BitVec.ofNat 31 mag

section
variable (sign : Bool) {mag : Nat}

theorem toNat_signedPattern (h : mag < 2 ^ 31) :
    (signedPattern sign mag).toNat = sign.toNat * 2 ^ 31 + mag := by
  rw [signedPattern, toNat_append_eq_add, BitVec.toNat_ofBool, BitVec.toNat_ofNat, Nat.mod_eq_of_lt h]

theorem f32Sign_signedPattern (mag : Nat) : f32Sign (signedPattern sign mag) = sign := by
  rw [f32Sign, signedPattern, BitVec.getLsbD_append]
  simp

theorem f32Exp_signedPattern (h : mag < 2 ^ 31) : f32Exp (signedPattern sign mag) = mag / 2 ^ 23 := by
  rw [f32Exp, toNat_extractLsb'_eq_mod, toNat_signedPattern sign h]
  omega

theorem f32Frac_signedPattern (h : mag < 2 ^ 31) : f32Frac (signedPattern sign mag) = mag % 2 ^ 23 := by
  rw [f32Frac, toNat_extractLsb'_eq_mod, toNat_signedPattern sign h]
  omega

/-- A significand of 24 bits carries its top bit into the exponent field. -/
theorem f32Value_signedPattern {p sig : Nat} (hp : p < 254) (hlo : 2 ^ 23 ≤ sig) (hhi : sig < 2 ^ 24) :
    f32Exp (signedPattern sign (p * 2 ^ 23 + sig)) = p + 1 ∧
    f32Value (signedPattern sign (p * 2 ^ 23 + sig)) =
      (if sign then -1 else 1) * (sig : Rat) * 2 ^ ((p : Int) - 149) := by
  have hmag : p * 2 ^ 23 + sig < 2 ^ 31 := by omega
  have hexp : f32Exp (signedPattern sign (p * 2 ^ 23 + sig)) = p + 1 := by
    rw [f32Exp_signedPattern sign hmag]
    omega
  have hsig : f32Sig (signedPattern sign (p * 2 ^ 23 + sig)) = sig := by
    rw [f32Sig, hexp, if_neg (Nat.succ_ne_zero p), f32Frac_signedPattern sign hmag]
    omega
  have hscale : f32Scale (signedPattern sign (p * 2 ^ 23 + sig)) = (p : Int) - 149 := by
    rw [f32Scale, hexp]
    omega
  exact ⟨hexp, by rw [f32Value, f32Sign_signedPattern, hsig, hscale]⟩

end

/-! Rounding a number that has at most 24 significant bits. -/

theorem shiftRightEven_mul_two_pow (a n : Nat) : shiftRightEven (a * 2 ^ n) n = a := by
  have hpos : 0 < 2 ^ n := Nat.two_pow_pos n
  simp only [shiftRightEven, Nat.mul_div_cancel a hpos, Nat.mul_mod_left]
  exact if_neg (by omega)

variable {a : Nat}

/-- The significand of `a`, shifted up to 24 bits. -/
def normalized (a : Nat) : Nat := a * 2 ^ (23 - a.log2)

theorem normalized_mul_two_pow (h : a.log2 ≤ 23) : normalized a * 2 ^ a.log2 = a * 2 ^ 23 := by
  rw [normalized, mul_assoc, ← pow_add, Nat.sub_add_cancel h]

theorem normalized_bounds (ha : a ≠ 0) (h : a.log2 ≤ 23) : 2 ^ 23 ≤ normalized a ∧ normalized a < 2 ^ 24 := by
  have hscale : 2 ^ a.log2 * 2 ^ (23 - a.log2) = 2 ^ 23 := by rw [← pow_add, Nat.add_sub_cancel' h]
  constructor
  · rw [← hscale]
    exact Nat.mul_le_mul_right _ (Nat.log2_self_le ha)
  · calc normalized a < 2 ^ (a.log2 + 1) * 2 ^ (23 - a.log2) :=
        Nat.mul_lt_mul_of_pos_right Nat.lt_log2_self (Nat.two_pow_pos _)
      _ = 2 ^ 24 := by rw [pow_succ, mul_right_comm, hscale]; rfl

theorem log2_mul_two_pow (ha : a ≠ 0) (n : Nat) : (a * 2 ^ n).log2 = a.log2 + n := by
  have hpos : 0 < 2 ^ n := Nat.two_pow_pos n
  rw [Nat.log2_eq_iff (mul_ne_zero ha hpos.ne'), add_right_comm, pow_add, pow_add]
  exact ⟨Nat.mul_le_mul_right _ (Nat.log2_self_le ha), Nat.mul_lt_mul_of_pos_right Nat.lt_log2_self hpos⟩

/-- Nothing is rounded away: the shift to the last place takes out powers of two only. -/
theorem roundF32_exact (sign : Bool) {e : Int} (ha : a ≠ 0) (h : a.log2 ≤ 23) (hlo : -149 ≤ e + a.log2)
    (hhi : e + a.log2 < 105) : roundF32 sign (a * 2 ^ 23) e =
      signedPattern sign ((e + a.log2 + 149).toNat * 2 ^ 23 + normalized a) := by
  obtain ⟨-, hnorm⟩ := normalized_bounds ha h
  have hplace : max (e + ((a.log2 + 23 : Nat) : Int) - 23) (-149) = e + a.log2 := by omega
  have hsig : (if e + (a.log2 : Int) ≤ e then a * 2 ^ 23 * 2 ^ (e - (e + a.log2)).toNat
      else shiftRightEven (a * 2 ^ 23) (e + a.log2 - e).toNat) = normalized a := by
    split
    · have hlog : a.log2 = 0 := by omega
      simp [normalized, hlog]
    · rw [add_sub_cancel_left, Int.toNat_natCast, ← normalized_mul_two_pow h, shiftRightEven_mul_two_pow]
  have hm : a * 2 ^ 23 ≠ 0 := mul_ne_zero ha (by decide)
  simp only [roundF32, log2_mul_two_pow ha, hplace, hsig, if_neg hm]
  rw [min_eq_left (by omega), signedPattern]

theorem f32Value_roundF32_exact (sign : Bool) {e : Int} (ha : a ≠ 0) (h : a.log2 ≤ 23) (hlo : -149 ≤ e + a.log2)
    (hhi : e + a.log2 < 105) : f32Exp (roundF32 sign (a * 2 ^ 23) e) ≠ 255 ∧
      f32Value (roundF32 sign (a * 2 ^ 23) e) = (if sign then -1 else 1) * (a : Rat) * 2 ^ (e + 23) := by
  obtain ⟨hnlo, hnhi⟩ := normalized_bounds ha h
  obtain ⟨hexp, hvalue⟩ := f32Value_signedPattern sign (p := (e + a.log2 + 149).toNat) (by omega) hnlo hnhi
  rw [roundF32_exact sign ha h hlo hhi]
  refine ⟨by omega, ?_⟩
  have hscale : (normalized a : Rat) * 2 ^ a.log2 = a * 2 ^ 23 := by exact_mod_cast normalized_mul_two_pow h
  have hplace : ((e + a.log2 + 149).toNat : Int) - 149 = e + a.log2 := by omega
  calc f32Value _ = (if sign then -1 else 1) * (normalized a * 2 ^ a.log2) * 2 ^ e := by
        rw [hvalue, hplace, zpow_add₀ (by decide), zpow_natCast]
        ring
    _ = (if sign then -1 else 1) * (a : Rat) * 2 ^ (e + 23) := by
        rw [hscale, zpow_add₀ (by decide)]
        ring

/-! The product with 1.0. -/

/-- The factor 1.0 is `2^23 * 2^-23`. -/
theorem accMulDefault_one (q : Int) :
    accMulDefault ((q : Rat) / 32) 0x3F800000#32 = roundF32 (decide (q < 0)) (q.natAbs * 2 ^ 23) (-28) := by
  have hexp : f32Exp 0x3F800000#32 = 127 := by decide
  have hsig : f32Sig 0x3F800000#32 = 2 ^ 23 := by decide
  have hscale : f32Scale 0x3F800000#32 = -23 := by decide
  have hsign : f32Sign 0x3F800000#32 = false := by decide
  simp [accMulDefault, hexp, hsig, hscale, hsign]

theorem f32Value_zero : f32Value 0#32 = 0 := by
  have hsig : f32Sig 0#32 = 0 := by decide
  rw [f32Value, hsig, Nat.cast_zero, mul_zero, zero_mul]

theorem sign_mul_natAbs (q : Int) : (if decide (q < 0) = true then -1 else 1) * (q.natAbs : Rat) = q := by
  obtain h | h := lt_or_ge q 0
  · rw [if_pos (decide_eq_true h), Nat.cast_natAbs, abs_of_neg h]
    simp
  · rw [if_neg (by simpa using h), Nat.cast_natAbs, abs_of_nonneg h, one_mul]

theorem accMulDefault_one_exact {q : Int} (hq : q.natAbs < 2 ^ 24) :
    f32Value (accMulDefault ((q : Rat) / 32) 0x3F800000#32) = (q : Rat) / 32 ∧
      f32Exp (accMulDefault ((q : Rat) / 32) 0x3F800000#32) ≠ 255 := by
  rw [accMulDefault_one]
  obtain rfl | hne := eq_or_ne q 0
  · have hzero : roundF32 (decide ((0 : Int) < 0)) ((0 : Int).natAbs * 2 ^ 23) (-28) = 0#32 := by decide
    rw [hzero, f32Value_zero]
    exact ⟨by norm_num, by decide⟩
  · have ha : q.natAbs ≠ 0 := Int.natAbs_ne_zero.2 hne
    have hlog : q.natAbs.log2 < 24 := (Nat.log2_lt ha).2 hq
    obtain ⟨hfinite, hvalue⟩ := f32Value_roundF32_exact (decide (q < 0)) (e := -28) ha (by omega) (by omega) (by omega)
    refine ⟨?_, hfinite⟩
    rw [hvalue, sign_mul_natAbs, div_eq_mul_inv]
    norm_num

/-- Settles O31: a mean is a numerator of 21 bits over 32, and 24 bits are a significand. -/
theorem everyMeanIsAFloatExactly : Obligations.EveryMeanIsAFloatExactly := by
  intro s ch
  have hlo := BitVec.le_toInt (s.meanAt ch)
  have hhi := BitVec.toInt_lt (x := s.meanAt ch)
  exact accMulDefault_one_exact (by omega)

end Sys2Proof.Machine
end

