-- ==== Sys2Proof/Proofs/FrameEffects.lean ====
section
/-! PROOFS. What the four classes of FRAME do (42_decoder.md R192 to R208): the charge update of FRAME.DATA, the one event of
FRAME.FAULT, and what no class of FRAME reads or writes. -/

namespace Sys2Proof.Machine

variable {s : State} {f : Frame} {op : Instr}

/-! The current, the elapsed time and the charge delta of a Data frame (42_decoder.md R198 to R200). -/

/-- The big-endian field, byte by byte. -/
theorem frameCurrent_eq (f : Frame) : frameCurrent f = f.current := by
  simp only [frameCurrent, Frame.current, Frame.raw, Config.bias, toNat_append_eq_add]
  omega

/-- The 32-bit modular difference is the difference of the clock values modulo `2^32`. -/
theorem elapsedMs_eq (s : State) (f : Frame) : elapsedMs s f = s.elapsed f.nowMs := by
  unfold elapsedMs State.elapsed
  split
  · have hprev := s.prevMs.isLt
    rw [BitVec.toNat_sub]
    omega
  · rfl

theorem elapsedMs_nonneg (s : State) (f : Frame) : 0 ≤ elapsedMs s f := by
  rw [elapsedMs_eq]
  exact Int.natCast_nonneg _

theorem frameDelta_eq (s : State) (f : Frame) : frameDelta s f = chargeDelta f.current (s.elapsed f.nowMs) := by
  rw [frameDelta, frameCurrent_eq, elapsedMs_eq]
  rfl

/-- The sign convention: the delta has the sign of the current (42_decoder.md R201). -/
theorem frameDelta_nonneg (h : 0 ≤ frameCurrent f) : 0 ≤ frameDelta s f :=
  Int.tdiv_nonneg (mul_nonneg h (elapsedMs_nonneg s f)) (by decide)

theorem frameDelta_nonpos (h : frameCurrent f ≤ 0) : frameDelta s f ≤ 0 := by
  have hproduct := mul_nonpos_of_nonpos_of_nonneg h (elapsedMs_nonneg s f)
  rw [frameDelta, ← neg_nonneg, ← Int.neg_tdiv]
  exact Int.tdiv_nonneg (neg_nonneg.2 hproduct) (by decide)

/-- The division rounds toward zero, so it loses a product below the divisor (42_decoder.md R200). -/
theorem frameDelta_eq_zero (h : (frameCurrent f * elapsedMs s f).natAbs < 360) : frameDelta s f = 0 := by
  rw [frameDelta, ← Int.natAbs_eq_zero, Int.natAbs_tdiv]
  exact Nat.div_eq_of_lt h

/-- The modular difference undoes an advance of the clock by `d < 2^32`, wrap or not (42_decoder.md R199). -/
theorem elapsedMs_of_advance {d : Nat} (hd : d < 2 ^ 32) (hvalid : s.prevValid = true)
    (hnow : f.nowMs = s.prevMs + BitVec.ofNat 32 d) : elapsedMs s f = d := by
  have hdiff : f.nowMs - s.prevMs = BitVec.ofNat 32 d := by rw [hnow, BitVec.add_comm, BitVec.add_sub_cancel]
  rw [elapsedMs_eq, State.elapsed, if_pos hvalid, hdiff, BitVec.toNat_ofNat, Nat.mod_eq_of_lt hd]

/-! The charge after a Data frame (42_decoder.md R203, R204). -/

theorem accept_charge (s : State) (f : Frame) :
    (s.accept f).charge.toInt = updatedCharge s.charge.toInt s.cfg.maxCharge.toInt (frameDelta s f) := by
  rw [frameDelta_eq]
  exact toInt_updatedCharge _ _ _

/-- For a charge that was not negative the two branches are a clamp at 0. -/
theorem updatedCharge_eq_clamp {charge : Int} (maxCharge delta : Int) (h : 0 ≤ charge) :
    updatedCharge charge maxCharge delta = min (max (charge - delta) 0) maxCharge := by
  simp only [updatedCharge]
  split_ifs <;> omega

theorem accept_charge_eq_clamp (f : Frame) (h : 0 ≤ s.charge.toInt) :
    (s.accept f).charge.toInt = min (max (s.charge.toInt - frameDelta s f) 0) s.cfg.maxCharge.toInt := by
  rw [accept_charge, updatedCharge_eq_clamp _ _ h]

/-- Settles O34: the registers are those `accept` sets, the current and the charge both within 32 bits. -/
theorem dataFrameNextState : Obligations.DataFrameNextState := by
  intro f s
  have hcurrent : (s.accept f).lastMA.toInt = frameCurrent f := (toInt_current f).trans (frameCurrent_eq f).symm
  exact ⟨s.accept f, rfl, hcurrent, rfl, rfl, accept_charge s f, rfl⟩

/-- Settles O35, from the clamp and the bound FRAME.DATA keeps. -/
theorem chargeUpdateClosedForm : Obligations.ChargeUpdateClosedForm := fun f s hcharge =>
  ⟨s.accept f, rfl, accept_charge_eq_clamp f hcharge, fun hlegal => accept_chargeBounded f hlegal hcharge⟩

/-- Settles O36, by the sign of the delta. -/
theorem dischargeLowersChargeRaises : Obligations.DischargeLowersChargeRaises := by
  rintro f s ⟨hcharge, hmax⟩
  have hclamp := accept_charge_eq_clamp f hcharge
  refine ⟨s.accept f, rfl, fun hdischarge => ?_, fun hcharging => ?_⟩
  · have hdelta := frameDelta_nonneg (s := s) hdischarge
    omega
  · have hdelta := frameDelta_nonpos (s := s) hcharging
    omega

/-- Settles O37: the delta is 0, and the clamp leaves a bounded charge alone. -/
theorem deadBandMovesNothing : Obligations.DeadBandMovesNothing := by
  intro f s hmax hcharge hband
  have hclamp := accept_charge_eq_clamp f hcharge
  rw [frameDelta_eq_zero hband] at hclamp
  exact ⟨s.accept f, rfl, BitVec.eq_of_toInt_eq (by omega)⟩

/-- Settles O38, by the elapsed time across the wrap. -/
theorem elapsedTimeSurvivesOneClockWrap : Obligations.ElapsedTimeSurvivesOneClockWrap := by
  intro f s d hd hvalid hnow
  refine ⟨s.accept f, rfl, fun hcharge => ?_⟩
  rw [accept_charge_eq_clamp f hcharge, frameDelta, elapsedMs_of_advance hd hvalid hnow]

/-! What no class of FRAME reads or writes (42_decoder.md R194, R208). -/

theorem frameOps_cases (h : op ∈ frameOps f) :
    op = .frameIgnore f ∨ op = .frameShort f ∨ op = .frameFault f ∨ op = .frameData f := by
  simpa only [frameOps, List.mem_cons, List.not_mem_nil, or_false] using h

/-- A FRAME writes the decoder registers and the event stream at most. -/
theorem nextState_of_mem_frameOps (s : State) (h : op ∈ frameOps f) : nextState s op = { s with
    lastMA := (nextState s op).lastMA, prevMs := (nextState s op).prevMs, prevValid := (nextState s op).prevValid
    charge := (nextState s op).charge, events := (nextState s op).events } := by
  obtain rfl | rfl | rfl | rfl := frameOps_cases h <;> rfl

/-- The state with the sampler state of another in the place of its own. -/
def State.withSampler (s r : State) : State :=
  { s with win := r.win, wpos := r.wpos, meanQ5 := r.meanQ5, vidx := r.vidx, tidx := r.tidx, sw := r.sw }

/-- A FRAME does not read the sampler state. -/
theorem nextState_withSampler (s r : State) (h : op ∈ frameOps f) :
    nextState (s.withSampler r) op = (nextState s op).withSampler r := by
  obtain rfl | rfl | rfl | rfl := frameOps_cases h <;> rfl

/-- Settles O39, from what a FRAME writes and what it does not read. -/
theorem framesLeaveTheSamplerAlone : Obligations.FramesLeaveTheSamplerAlone := by
  intro f s r op hop
  have hread : exec op (s.withSampler r) = .next ((nextState s op).withSampler r) := by
    rw [exec_eq, nextState_withSampler s r hop]
  refine ⟨nextState s op, exec_eq op s, ?_, ?_, ?_, ?_, ?_, ?_, ?_, hread⟩ <;> rw [nextState_of_mem_frameOps s hop]

/-- The state with the receive enable set to a level. -/
def State.withRxEnable (s : State) (b : Bool) : State := s.setCfg { s.cfg with rxEnable := b }

/-- A FRAME does not read the receive enable. -/
theorem nextState_withRxEnable (s : State) (b : Bool) (h : op ∈ frameOps f) :
    nextState (s.withRxEnable b) op = (nextState s op).withRxEnable b := by
  obtain rfl | rfl | rfl | rfl := frameOps_cases h <;> rfl

/-! A step on a frame. -/

variable {rsp0 rsp1 : BitVec 17} {w : FrameWord} {d : Bool} {rest : List Input}

/-- A step on a presentable frame performs the operation of its class on the state with the frame taken. -/
theorem step_frame (hdlc : w.dlc.toNat ≤ 8) (h : s.inputs = .req 0b010#3 rsp0 rsp1 w d :: rest) :
    step s = .next (nextState (s.setInputs rest) (classify s.cfg.sensorAddr (portFrame w))) :=
  (step_of_one h (decodeInput_frame _ rsp0 rsp1 d hdlc)).trans (exec_eq _ _)

/-- Settles O40: the class of the frame and its operation are the same under either level. -/
theorem receiveEnableGatesNothing : Obligations.ReceiveEnableGatesNothing := by
  refine fun s b => ⟨rfl, fun rsp0 rsp1 w d rest hdlc h => ⟨_, step_frame hdlc h, ?_⟩⟩
  have hmem := classify_mem_frameOps s.cfg.sensorAddr (portFrame w)
  exact (step_frame (s := s.withRxEnable b) hdlc h).trans
    (congrArg Host.Outcome.next (nextState_withRxEnable (s.setInputs rest) b hmem))

/-- Settles O32, by the two classes: neither operation does anything. -/
theorem ignoredAndShortFramesChangeNothing : Obligations.IgnoredAndShortFramesChangeNothing := by
  refine fun s => ⟨fun f => ⟨rfl, rfl⟩, fun rsp0 rsp1 w d rest hdlc h hcond => ?_⟩
  obtain ⟨hignore, hshort, -⟩ := frameResolvesByOrderedTests s.cfg.sensorAddr rsp0 rsp1 w d hdlc
  by_cases hid : w.id = s.cfg.sensorAddr
  · exact step_of_one h (hshort hid (hcond.resolve_left (not_not.2 hid)))
  · exact step_of_one h (hignore hid)

/-- The fault code is the upper seven bits of the status byte. -/
theorem exec_frameFault (f : Frame) (s : State) : exec (.frameFault f) s =
    .next (s.emitEvent (.fault (Config.faultMap ((f.byte 4).extractLsb' 1 7)) ((f.byte 4).extractLsb' 1 7))) := by
  have hcode : f.faultCode = (f.byte 4).extractLsb' 1 7 := closeUpBit_zero _
  rw [exec_eq, nextState, hcode]

/-- Settles O33: the frame is classed as a fault frame, and its code on the port is `P[31:25]`. -/
theorem faultFrameEmitsOneEvent : Obligations.FaultFrameEmitsOneEvent := by
  refine fun s => ⟨fun f => exec_frameFault f s, fun rsp0 rsp1 w d rest h5 h8 h hid hbit => ?_⟩
  obtain ⟨-, -, hfault, -⟩ := frameResolvesByOrderedTests s.cfg.sensorAddr rsp0 rsp1 w d h8
  rw [step_of_one h (hfault hid h5 hbit), exec_eq, nextState, portFrame_faultCode h5]
  rfl

end Sys2Proof.Machine
end

