-- ==== Sys2Proof/Proofs/StreamsAndRuns.lean ====
section
/-! PROOFS. What an operation appends to the streams (60_exceptions.md R230, R235, R239), when a step is refused
(30_encoding.md R109), and from both the runs from a safe state. -/

namespace Sys2Proof.Machine

variable {s t : State}

/-! The writers of the streams: what an operation appends. -/

theorem events_writers (s : State) (i : Instr) : (nextState s i).events = s.events ∨ (∃ f, i = .frameFault f) ∨
    (∃ a b, i = .tick a b) ∨ (∃ kind code, i = .evFault kind code) ∨ i = .evImbalance := by
  cases i with
  | frameFault f => simp
  | tick a b => simp
  | evFault kind code => simp
  | evImbalance => simp
  | _ => exact .inl rfl

/-- Settles O47, by the writers of the event stream; a TICK writes it under the condition of the imbalance check. -/
theorem eventsHaveOnlyTheirCauses : Obligations.EventsHaveOnlyTheirCauses := by
  intro i s
  refine ⟨nextState s i, exec_eq i s, ?_⟩
  obtain hsame | ⟨f, rfl⟩ | ⟨a, b, rfl⟩ | ⟨kind, code, rfl⟩ | rfl := events_writers s i
  · exact .inl hsame
  · exact .inr ⟨_, rfl, .inl ⟨f, rfl, rfl⟩⟩
  · by_cases hcond : s.vidx = 3#2 ∧ (s.tick a b).spreadExceeds s.cfg.imbThresh.toInt
    · exact .inr ⟨.imbalance, tick_events_of_imbalance hcond, .inr (.inl ⟨a, b, rfl, rfl, hcond⟩)⟩
    · exact .inl (tick_events_of_no_imbalance hcond)
  · exact .inr ⟨_, rfl, .inr (.inr (.inl ⟨kind, code, rfl, rfl⟩))⟩
  · exact .inr ⟨_, rfl, .inr (.inr (.inr ⟨rfl, rfl⟩))⟩

theorem events_prefix_nextState (s : State) (i : Instr) : s.events <+: (nextState s i).events := by
  obtain ⟨t, hexec, hevents⟩ := eventsHaveOnlyTheirCauses i s
  cases (exec_eq i s).symm.trans hexec
  obtain hsame | ⟨e, happend, -⟩ := hevents
  · rw [hsame]
  · exact ⟨[e], happend.symm⟩

theorem cmds_prefix_nextState (s : State) (i : Instr) : s.cmds <+: (nextState s i).cmds := by
  obtain hsame | ⟨a, b, rfl⟩ | ⟨l, rfl⟩ | ⟨l, rfl⟩ | ⟨ch, rfl⟩ | ⟨c, rfl⟩ := cmds_writers s i
  · rw [hsame]
  · rw [nextState, tick_eq_reads]
    exact List.prefix_append _ _
  all_goals exact List.prefix_append _ _

@[simp] theorem tick_reads (s : State) (rsp0 rsp1 : Rsp) : (s.tick rsp0 rsp1).reads = s.reads := by rw [tick_frame]

/-- Only a read writes the record of the values read, and it records one value (41_accessor.md R170). -/
theorem reads_writers (s : State) (i : Instr) :
    (nextState s i).reads = s.reads ∨ ∃ v, nextState s i = s.emitRead v := by
  cases i with
  | rdVolt x => exact .inr ⟨_, rfl⟩
  | rdTemp x => exact .inr ⟨_, rfl⟩
  | rdCur => exact .inr ⟨_, rfl⟩
  | rdChg => exact .inr ⟨_, rfl⟩
  | tick a b => exact .inl (tick_reads s a b)
  | _ => exact .inl rfl

theorem reads_prefix_nextState (s : State) (i : Instr) : s.reads <+: (nextState s i).reads := by
  obtain hsame | ⟨v, hread⟩ := reads_writers s i
  · rw [hsame]
  · rw [hread]
    exact List.prefix_append _ _

/-- Settles O46: the next state is a total function, and each stream it leaves begins with the old one. -/
theorem everyOperationCompletes : Obligations.EveryOperationCompletes := fun i s =>
  ⟨nextState s i, exec_eq i s, cmds_prefix_nextState s i, events_prefix_nextState s i, reads_prefix_nextState s i,
    nextState_inputs s i⟩

/-! When a step is refused (30_encoding.md R109). -/

theorem toFrame_error {w : FrameWord} {e : DecodeError} (h : w.toFrame = .error e) : e = .dlcOver8 := by
  unfold FrameWord.toFrame at h
  split_ifs at h
  cases h
  rfl

/-- On the request port only the frame can be refused. -/
theorem decodeReq_error {addr : BitVec 11} {strobes : BitVec 3} {rsp0 rsp1 : BitVec 17} {w : FrameWord}
    {frameFirst : Bool} {e : DecodeError} (h : decodeReq addr strobes rsp0 rsp1 w frameFirst = .error e) :
    e = .dlcOver8 := by
  simp only [decodeReq] at h
  cases hframe : w.toFrame with
  | error e' =>
    cases toFrame_error hframe
    simp only [hframe] at h
    split_ifs at h
    cases h
    rfl
  | ok f =>
    simp only [hframe] at h
    split_ifs at h

/-- R109 (7): the frames that cannot be presented to the block, by the name of their refusal. -/
def Unpresentable (r : Refusal) : Prop := r = .dlcOver8 ∨ r = .extendedId ∨ r = .remoteFrame

/-- An agent's input has no meaning only when it is a frame that cannot be presented. -/
theorem unpresentable_of_external {addr : BitVec 11} {inp : Input} {e : DecodeError} (hext : inp.external = true)
    (h : decodeInput addr inp = .error e) : Unpresentable (refusalOf e) := by
  cases inp with
  | req strobes rsp0 rsp1 w frameFirst => exact .inl (congrArg refusalOf (decodeReq_error h))
  | rdp sel idx => cases h
  | cfg w => cases h
  | foreign k => cases k <;> cases h <;> simp [Unpresentable, refusalOf]
  | benchPush ch code => cases hext
  | benchCmd w => cases hext
  | benchEvt w => cases hext

/-- A step is refused only on an input without a meaning, and under its name: no operation is refused. -/
theorem step_refused_cases {r : Refusal} (h : step s = .refused r) :
    ∃ inp rest e, s.inputs = inp :: rest ∧ decodeInput s.cfg.sensorAddr inp = .error e ∧ r = refusalOf e := by
  cases hin : s.inputs with
  | nil => simp [step_nil s hin] at h
  | cons inp rest =>
    rw [step_cons s hin] at h
    cases hd : decodeInput s.cfg.sensorAddr inp with
    | error e => exact ⟨inp, rest, e, rfl, hd, by simpa [hd] using h.symm⟩
    | ok d => cases d <;> simp [hd, exec_eq] at h

theorem step_refused_unpresentable {r : Refusal} (hext : s.ExternalInputs) (h : step s = .refused r) :
    Unpresentable r := by
  obtain ⟨inp, rest, e, hinputs, hd, rfl⟩ := step_refused_cases h
  exact unpresentable_of_external (hext inp (by simp [hinputs])) hd

/-! Safe runs (10_state.md R50 to R53). -/

theorem step_safe (hs : s.Safe) (h : step s = .next t) : t.Safe := by
  obtain ⟨hwindow, hindex, hswitch, hcharge, hext⟩ := hs
  obtain ⟨hwindow', hindex'⟩ := stepKeepsWindowAndIndexInvariants s t hwindow hindex h
  obtain ⟨hswitch', hext'⟩ := stepKeepsSwitchInvariant s t hext hswitch h
  exact ⟨hwindow', hindex', hswitch', stepKeepsChargeNonNegative s t hcharge h, hext'⟩

theorem run_succ_of_next (n : Nat) (h : step s = .next t) :
    Host.Core.run Sys2Proof.core (n + 1) s = Host.Core.run Sys2Proof.core n t := by
  have hcore : Sys2Proof.core.step s = .next t := h
  simp only [Host.Core.run, hcore]

theorem run_succ_of_refused {r : Refusal} (n : Nat) (h : step s = .refused r) :
    Host.Core.run Sys2Proof.core (n + 1) s = .refused r := by
  have hcore : Sys2Proof.core.step s = .refused r := h
  simp only [Host.Core.run, hcore]

/-- The induction over a run: what every step keeps holds at its end, unless a step is refused. That no step faults is the
type `Fault`, which has no value. -/
theorem run_keeps {P : State → Prop} {R : Refusal → Prop} (hnext : ∀ {s t}, P s → step s = .next t → P t)
    (hrefused : ∀ {s r}, P s → step s = .refused r → R r) (n : Nat) : ∀ s : State, P s →
    (∃ t : State, Host.Core.run Sys2Proof.core n s = .next t ∧ P t) ∨
      ∃ r : Refusal, Host.Core.run Sys2Proof.core n s = .refused r ∧ R r := by
  induction n with
  | zero => exact fun s hs => .inl ⟨s, rfl, hs⟩
  | succ n ih =>
    intro s hs
    cases hstep : step s with
    | next t =>
      rw [run_succ_of_next n hstep]
      exact ih t (hnext hs hstep)
    | fault r => cases r
    | refused r => exact .inr ⟨r, run_succ_of_refused n hstep, hrefused hs hstep⟩

/-- Settles O56: a step keeps a safe state safe, or is refused a frame that cannot be presented. -/
theorem safeRunsStaySafe : Obligations.SafeRunsStaySafe :=
  run_keeps step_safe fun ⟨_, _, _, _, hext⟩ h => step_refused_unpresentable hext h

end Sys2Proof.Machine
end

