-- ==== Sys2Proof/Proofs/ResetAndConverters.lean ====
section
/-! PROOFS. The state RESET leaves (70_reset_and_hazards.md R270 to R274), and what a TICK sends to each converter
(R282). -/

namespace Sys2Proof.Machine

/-! RESET. -/

/-- R273: the charge RESET leaves is the stored initial charge forced into its range, as an exact integer. -/
theorem resetBlock_charge_toInt (s : State) :
    s.resetBlock.charge.toInt = min (max s.cfg.chargeInit.toInt 0) s.cfg.maxCharge.toInt :=
  toInt_resetCharge s.cfg.chargeInit s.cfg.maxCharge

/-- Settles O41, by the laws of `resetBlock`. -/
theorem resetNextState : Obligations.ResetNextState := fun s =>
  ⟨s.resetBlock, exec_eq .reset s, resetBlock_winRead s, resetBlock_wposAt s, resetBlock_meanAt s, resetBlock_vidx s,
    resetBlock_tidx s, resetBlock_swAt s, resetBlock_lastMA s, resetBlock_prevMs s, resetBlock_prevValid s,
    resetBlock_charge_toInt s, resetBlock_cfg s, resetBlock_cmds s, resetBlock_events s, resetBlock_reads s,
    resetBlock_inputs s⟩

/-- Settles O42: RESET changes nothing in the reset state, so what `resetNextState` says of its result holds of it. -/
theorem resetStateHoldsTheResetValues : Obligations.ResetStateHoldsTheResetValues := by
  obtain ⟨t, hexec, hwin, hwpos, hmean, hvidx, htidx, hsw, hlast, hprev, hvalid, hcharge, -⟩ :=
    resetNextState State.reset
  obtain rfl : State.reset = t := by
    rw [exec_eq, nextState, resetBlock_reset] at hexec
    exact Host.Outcome.next.inj hexec
  exact ⟨hwin, hwpos, hmean, hvidx, htidx, hsw, hlast, hprev, hvalid, hcharge⟩

/-! The commands a TICK sends to one converter. -/

/-- The commands of a stream that are addressed to converter `c` (20_memory.md R68). -/
def cmdsTo (c : BitVec 1) (cmds : List Cmd) : List Cmd := cmds.filter fun cmd => cmd.converter == some c

/-- The channel a TICK starts on converter `c`, its advanced indices being `v` and `t` (20_memory.md R71). -/
def channelOn (c : BitVec 1) (v t : BitVec 2) : Channel := if c = 0#1 then voltChannel v else thermChannel t

theorem converterOf_channelOn : ∀ (c : BitVec 1) (v t : BitVec 2), converterOf (channelOn c v t) = c := by decide

theorem cmdsTo_append (c : BitVec 1) (xs ys : List Cmd) : cmdsTo c (xs ++ ys) = cmdsTo c xs ++ cmdsTo c ys :=
  List.filter_append ..

theorem cmdsTo_fetchCmds : ∀ c : BitVec 1, cmdsTo c fetchCmds = [.adcFetch c] := by decide

theorem cmdsTo_startCmds : ∀ (c : BitVec 1) (v t : BitVec 2),
    cmdsTo c (startCmds (voltChannel v) (thermChannel t)) = [.adcStart (channelOn c v t)] := by decide

/-- The de-assert phase of the routing addresses no converter. -/
theorem cmdsTo_clearCmds (c : BitVec 1) (chs : List Channel) : cmdsTo c (clearCmds chs) = [] := by
  induction chs with
  | nil => rfl
  | cons ch rest ih => exact ih

/-- The assert phase of the routing addresses no converter. -/
theorem cmdsTo_assertCmds (c : BitVec 1) (nv nt : Channel) : cmdsTo c (assertCmds nv nt) = [] := rfl

theorem cmdsTo_tickCmds (c : BitVec 1) (v t : BitVec 2) :
    cmdsTo c (tickCmds v t) = [.adcFetch c, .adcStart (channelOn c v t)] := by
  simp only [tickCmds_eq, breakCmds, makeCmds, cmdsTo_append, cmdsTo_fetchCmds, cmdsTo_clearCmds, cmdsTo_assertCmds,
    cmdsTo_startCmds, List.append_nil, List.nil_append, List.singleton_append]

/-- Settles O19: of the four phases of the stream only the fetches and the starts address a converter, each one once. -/
theorem oneFetchThenOneStartPerConverter : Obligations.OneFetchThenOneStartPerConverter := fun s rsp0 rsp1 =>
  ⟨s.tick rsp0 rsp1, _, exec_eq (.tick rsp0 rsp1) s, tick_cmds s rsp0 rsp1, fun c =>
    ⟨channelOn c _ _, converterOf_channelOn c _ _, cmdsTo_tickCmds c _ _⟩⟩

end Sys2Proof.Machine
end

