-- ==== Sys2Proof/Proofs/RoundTrip.lean ====
section
/-! PROOFS. Decoding an encoded instruction: the converter answers, the command and event words and the frame on the `FRM`
port are each read back from their port (30_encoding.md R91 to R108). -/

namespace Sys2Proof.Machine

/-! Converter answers, command words and event words (30_encoding.md R102 to R107). -/

/-- The bit above the low part of a word is the bit in front. -/
theorem getLsbD_width_append {n : Nat} (x : BitVec 1) (y : BitVec n) : (x ++ y).getLsbD n = x.getLsbD 0 := by
  rw [BitVec.getLsbD_append, if_neg (lt_irrefl n), Nat.sub_self]

theorem decodeRsp_encodeRsp (rsp : Rsp) : decodeRsp (encodeRsp rsp) = rsp := by
  cases rsp with
  | notReady => rfl
  | ready code =>
    rw [encodeRsp, decodeRsp, getLsbD_width_append, BitVec.extractLsb'_append_eq_right]
    rfl

theorem decodeCmd_swClr : ∀ line : Line, decodeCmd (0b00#2 ++ line) = some (.swClr line) := by decide
theorem decodeCmd_swSet : ∀ line : Line, decodeCmd (0b01#2 ++ line) = some (.swSet line) := by decide
theorem decodeCmd_adcStart : ∀ ch : Channel, decodeCmd (0b10#2 ++ (0#1 ++ ch)) = some (.adcStart ch) := by decide
theorem decodeCmd_adcFetch : ∀ c : BitVec 1, decodeCmd (0b11#2 ++ (0#3 ++ c)) = some (.adcFetch c) := by decide

theorem faultKindOf_number (kind : FaultKind) : faultKindOf kind.number = some kind := by cases kind <;> rfl

/-- 30_encoding.md R107: the kind and the code stand in their own bits, below a clear type bit. -/
theorem decodeEvt_evFault (kind : FaultKind) (code : BitVec 7) :
    decodeEvt (0#1 ++ (kind.number ++ code)) = some (.evFault kind code) := by
  have htype : (0#1 ++ (kind.number ++ code)).getLsbD 10 = false := getLsbD_width_append _ _
  have hkind : (0#1 ++ (kind.number ++ code)).extractLsb' 7 3 = kind.number := by
    rw [BitVec.extractLsb'_append_eq_of_add_le (by decide), BitVec.extractLsb'_append_eq_left]
  have hcode : (0#1 ++ (kind.number ++ code)).extractLsb' 0 7 = code := by
    rw [BitVec.extractLsb'_append_eq_of_add_le (by decide), BitVec.extractLsb'_append_eq_right]
  rw [decodeEvt, htype, hkind, hcode, faultKindOf_number]
  rfl

theorem decodeInput_benchCmd {w : BitVec 6} {i : Instr} (addr : BitVec 11) (h : decodeCmd w = some i) :
    decodeInput addr (.benchCmd w) = .ok (.one i) := by rw [decodeInput, h]

theorem decodeInput_benchEvt {w : BitVec 11} {i : Instr} (addr : BitVec 11) (h : decodeEvt w = some i) :
    decodeInput addr (.benchEvt w) = .ok (.one i) := by rw [decodeInput, h]

/-! The frame on the `FRM` port (30_encoding.md R93, R100). -/

variable {f : Frame} {addr : BitVec 11}

/-- A slice of one byte above the last byte of a word is a slice of the bytes before it. -/
theorem extractLsb'_append_byte {n : Nat} (x : BitVec n) (y : Byte) (start : Nat) :
    (x ++ y).extractLsb' (start + 8) 8 = x.extractLsb' start 8 :=
  BitVec.extractLsb'_append_eq_of_le (by omega)

/-- 30_encoding.md R93: the payload view holds the bytes of the frame in order, an absent one as 0. -/
theorem payloadBytes_payloadOf (f : Frame) : payloadBytes (payloadOf f) = (List.range 8).map f.byte := by
  simp only [payloadBytes, payloadOf, extractLsb'_append_byte, BitVec.extractLsb'_append_eq_right,
    BitVec.extractLsb'_eq_self]
  rfl

/-- The bytes a frame carries, read one by one, are its payload. -/
theorem map_byte_range_dlc (f : Frame) : (List.range f.dlc).map f.byte = f.data := by
  refine List.ext_getElem (by simp [Frame.dlc]) fun n _ hn => ?_
  simp [Frame.byte, hn]

theorem frameWordOf_dlc (h : f.dlc ≤ 8) : (frameWordOf f).dlc.toNat = f.dlc := Nat.mod_eq_of_lt (by omega)

/-- A frame of at most 8 bytes comes back from the port: the padding is cut off again. -/
theorem portFrame_frameWordOf (h : f.dlc ≤ 8) : portFrame (frameWordOf f) = f := by
  have hdata : (portFrame (frameWordOf f)).data = f.data := calc
    _ = (payloadBytes (payloadOf f)).take f.dlc := congrArg (payloadBytes (payloadOf f)).take (frameWordOf_dlc h)
    _ = (List.range f.dlc).map f.byte := by
      rw [payloadBytes_payloadOf, ← List.map_take, List.take_range, Nat.min_eq_left h]
    _ = f.data := map_byte_range_dlc f
  exact congrArg (Frame.mk f.id · f.nowMs) hdata

theorem decodeInput_encodeFrame (addr : BitVec 11) (h : f.dlc ≤ 8) :
    decodeInput addr (encodeFrame f) = .ok (.one (classify addr f)) := by
  rw [encodeFrame, decodeInput_frame addr _ _ _ ((frameWordOf_dlc h).trans_le h), portFrame_frameWordOf h]

/-- A well-formed FRAME operation is encoded as its frame, which can be presented and resolves to it (30_encoding.md R93,
R100). -/
theorem frameOp_encode_and_class {i : Instr} (hi : i ∈ frameOps f) (h : i.wf addr = true) :
    encode i = encodeFrame f ∧ f.dlc ≤ 8 ∧ classify addr f = i := by
  simp only [frameOps, List.mem_cons, List.not_mem_nil, or_false] at hi
  obtain rfl | rfl | rfl | rfl := hi <;>
  · obtain ⟨hfits, hclass⟩ := Bool.and_eq_true_iff.1 h
    exact ⟨rfl, of_decide_eq_true hfits, by rw [classify, eq_of_beq hclass]⟩

theorem decodeInput_encode_frameOp {i : Instr} (hi : i ∈ frameOps f) (h : i.wf addr = true) :
    decodeInput addr (encode i) = .ok (.one i) := by
  obtain ⟨hencode, hdlc, hclass⟩ := frameOp_encode_and_class hi h
  rw [hencode, decodeInput_encodeFrame addr hdlc, hclass]

/-- Settles O3, by the instruction: what stands on each port is read back, and a frame is classed as its operation says. -/
theorem decodeOfEncodeIsTheInstruction : Obligations.DecodeOfEncodeIsTheInstruction := by
  intro addr i h
  cases i with
  | reset => rfl
  | tick rsp0 rsp1 => rw [encode, decodeInput_tick, decodeRsp_encodeRsp, decodeRsp_encodeRsp]
  | winPush ch code => rfl
  | frameIgnore f => exact decodeInput_encode_frameOp (f := f) (by simp [frameOps]) h
  | frameShort f => exact decodeInput_encode_frameOp (f := f) (by simp [frameOps]) h
  | frameFault f => exact decodeInput_encode_frameOp (f := f) (by simp [frameOps]) h
  | frameData f => exact decodeInput_encode_frameOp (f := f) (by simp [frameOps]) h
  | rdVolt i => rfl
  | rdTemp i => rfl
  | rdCur => rfl
  | rdChg => rfl
  | cfgWrite w => rfl
  | swClr line => exact decodeInput_benchCmd addr (decodeCmd_swClr line)
  | swSet line => exact decodeInput_benchCmd addr (decodeCmd_swSet line)
  | adcStart ch => exact decodeInput_benchCmd addr (decodeCmd_adcStart ch)
  | adcFetch c => exact decodeInput_benchCmd addr (decodeCmd_adcFetch c)
  | evFault kind code => exact decodeInput_benchEvt addr (decodeEvt_evFault kind code)
  | evImbalance => rfl

end Sys2Proof.Machine
end
